-- ==== Sys2Proof/Word.lean ====
section
/-! DEFINITION. The word types of the block (spec 00_scope.md R11, R12; 30_encoding.md R61). -/

namespace Sys2Proof

/-- A `W`-bit unsigned value; bit 0 is the least significant bit and bit `W-1` the top bit (R11, R12). -/
abbrev Word (W : Nat) := BitVec W

/-- The `2 + 2W`-bit command word `op ‖ seed ‖ taps_in` (R61). -/
abbrev CmdWord (W : Nat) := BitVec (2 + 2 * W)

end Sys2Proof
end

