-- ==== Sys2Proof/Machine/Primitives.lean ====
section
/-! DEFINITION. The datapath primitives (spec 40_primitives.md R80 to R90): total, pure functions on `W`-bit values, none of
them a command. -/

namespace Sys2Proof.Machine

/-- AND: `(a & b)[i] = a[i] AND b[i]` (R80). -/
def bitAnd {W : Nat} (a b : Word W) : Word W := a &&& b

/-- OR: `(a | b)[i] = a[i] OR b[i]` (R81). -/
def bitOr {W : Nat} (a b : Word W) : Word W := a ||| b

/-- NOT at width `W`, never wider: `(~a)[i] = NOT a[i]` (R82). -/
def bitNot {W : Nat} (a : Word W) : Word W := ~~~a

/-- XOR: `(a ^ b)[i] = a[i] XOR b[i]` (R83). The step never applies it to two words; the laws of R86 and R128 are stated with it. -/
def bitXor {W : Nat} (a b : Word W) : Word W := a ^^^ b

/-- `BitReverse_W`: `r[i] = v[W-1-i]`, across exactly `W` bits (R84). -/
def bitReverse {W : Nat} (v : Word W) : Word W :=
  BitVec.ofFnLE fun i => v.getLsbD (W - 1 - i)

/-- `v[0] + … + v[n-1]` as a natural number. -/
def popCountBelow {W : Nat} (v : Word W) : Nat → Nat
  | 0 => 0
  | n + 1 => popCountBelow v n + (v.getLsbD n).toNat

/-- `PopCount`: how many of the `W` bits are 1 (R85). -/
def popCount {W : Nat} (v : Word W) : Nat := popCountBelow v W

/-- `Parity(v) = PopCount(v) & 1` (R86). -/
def parity {W : Nat} (v : Word W) : Bool := popCount v % 2 == 1

/-- The XOR of `f 0, …, f (n-1)`: the other form of the parity in R86, and the recurrence of R130. -/
def xorBelow (f : Nat → Bool) : Nat → Bool
  | 0 => false
  | n + 1 => xorBelow f n ^^ f n

/-- `zext_W` of a single bit (R13, R81): it can only affect bit 0. -/
def zextBit (W : Nat) (b : Bool) : Word W := (BitVec.ofBool b).setWidth W

/-- `RotateRight1_W`: `(v >> 1) | ((v & 1) << (W-1))` (R87). -/
def rotateRight1 {W : Nat} (v : Word W) : Word W :=
  (v >>> 1) ||| ((v &&& 1#W) <<< (W - 1))

end Sys2Proof.Machine
end

