-- ==== Sys2Proof/Machine/Lfsr.lean ====
section
/-! DEFINITION. The step function of the generator (spec 42_step.md R120 to R130). It is internal: no command is it, and
CONSTRUCT and NEXT apply it (R62, R120). -/

namespace Sys2Proof.Machine

/-- The feedback bit (XOR-fold): `PopCount(previous & t) & 1` (R121). -/
def feedbackBit {W : Nat} (previous t : Word W) : Bool := parity (bitAnd previous t)

/-- Bit-0 replacement: `(previous & ~1) | feedbackBit` (R122). -/
def masked {W : Nat} (previous t : Word W) : Word W :=
  bitOr (bitAnd previous (bitNot (1#W))) (zextBit W (feedbackBit previous t))

/-- `Step(s, t)`: feedback bit, bit-0 replacement, rotate right by one (R120, R123). -/
def lfsrStep {W : Nat} (s t : Word W) : Word W := rotateRight1 (masked s t)

/-- `Step^k(s, t)`: `Step` applied `k` times with the same mask (R130, R143). -/
def stepPow {W : Nat} (t : Word W) : Nat → Word W → Word W
  | 0, s => s
  | k + 1, s => lfsrStep (stepPow t k s) t

/-- The inverse that R127 writes out for masks with bit 0 set: `s[W-1:1] = n[W-2:0]` and
`s[0] = n[W-1] XOR Parity((n << 1) & t)`. -/
def lfsrUnstep {W : Nat} (n t : Word W) : Word W :=
  (n <<< 1) ||| zextBit W (n.getLsbD (W - 1) ^^ parity ((n <<< 1) &&& t))

end Sys2Proof.Machine
end

