-- ==== Sys2Proof/Config.lean ====
section
/-! DEFINITION. What is fixed when the block is elaborated: the width `W`, the block's one implementation parameter
(spec 00_scope.md R8; 92_eei_decisions.md D1). The model has no free value: the spec says that no behaviour of the block
is a draw (93_implementation_defined.md, after U13). -/

namespace Sys2Proof

/-- The elaboration parameter: a width `W` with `2 ≤ W` and no upper bound (R8, D1). A width below 2 cannot be written
down, which is how an illegal elaboration is refused before any command exists (R90, R187; U8). -/
structure Config where
  W : Nat
  two_le : 2 ≤ W
  deriving DecidableEq, Repr

/-- Elaborate the block at width `n`: refused (`none`) below 2 (R187, U8). -/
def Config.ofWidth? (n : Nat) : Option Config :=
  if h : 2 ≤ n then some ⟨n, h⟩ else none

/-- The width at which spec/opcode_table.json writes its words out (`instance_width_W` = 4, ten-bit words). The reset
state that the host runs is elaborated at it (DESIGN CHOICE, assumption 2); every definition and statement of the model
is for every width. -/
def Config.table : Config := ⟨4, by decide⟩

end Sys2Proof
end

