-- ==== Sys2Proof/Syntax.lean ====
section
/-! DEFINITION. The commands of the block: one constructor per row of spec/opcode_table.json (spec 30_encoding.md R62). -/

namespace Sys2Proof

/-- A command with its operands (R62). The internal `Step` is no command (R62), `0b11` is no command (R66), and there are
no pseudo-commands (R70). -/
inductive Instr where
  /-- `IDLE`: the host makes no call in this cycle (R160). -/
  | idle
  /-- `CONSTRUCT seed, taps_in` of a width-`W` block: both operands are exactly `W` bits, `tapsIn` un-reversed
  (R100, R63, R45). -/
  | construct (W : Nat) (seed tapsIn : Word W)
  /-- `NEXT`: return `state` and advance it by one step (R140). -/
  | next
  deriving DecidableEq, Repr

end Sys2Proof
end

