-- ==== Sys2Proof/Machine/State.lean ====
section
/-! DEFINITION. The block's state, its ports, and the reasons a step can stop (spec 10_state.md R20 to R36; 30_encoding.md
R60, R64; 60_exceptions.md R181). -/

namespace Sys2Proof.Machine

/-- The error kinds; there is no other (R181). -/
inductive ErrorKind where
  /-- `CONSTRUCT` with `seed = 0` (R101). -/
  | seedIsZero
  /-- `CONSTRUCT` with a nonzero seed and `taps_in[W-1] = 0` (R103). -/
  | tapsMustHaveMsbSet
  /-- `NEXT` while the block holds no instance (R142). -/
  | notConstructed
  deriving DecidableEq, Repr

/-- The response to a command of a width-`W` block (R64). Only `value` carries data: in the other kinds the `value` port is
not meaningful and the spec gives it no bits (R64, U4). -/
inductive Response (W : Nat) where
  /-- `None`, the response of `IDLE`. -/
  | none
  /-- `Ok`, the response of a `CONSTRUCT` that succeeds. -/
  | ok
  /-- `Value(v)`, the response of `NEXT` with `constructed = 1`. -/
  | value (v : Word W)
  /-- `Err(kind)`: an error is a response and nothing else (R180). -/
  | err (kind : ErrorKind)
  deriving DecidableEq, Repr

/-- What the host drives on the input ports in one clock cycle (R60); `clk` is the step itself. -/
structure Pins (W : Nat) where
  rst : Bool
  op : BitVec 2
  seed : Word W
  tapsIn : Word W
  deriving DecidableEq, Repr

/-- The three state elements of R20 in one value. The tag is the flag `constructed`; the registers `state` and `taps` exist
exactly while it is 1, because while it is 0 they "hold no value" and a model "must not give it 0 or any other value"
(R26, R31; U1 asks for "an option type or a structure that has them only when constructed"). -/
inductive Slot (W : Nat) where
  /-- `constructed = 0`: the block holds no instance. -/
  | empty
  /-- `constructed = 1`: the block holds the instance `(state, taps)` (R22, R23). -/
  | holds (state taps : Word W)
  deriving DecidableEq, Repr

/-- The machine. `slot` is the block's whole architectural state (R20, R21). The other three fields are the model's own, since
a step of the host's interface takes nothing but a state: the elaboration parameter, the input the host has still to drive
(R14), and what the output ports answered last (R64, R65). No command reads `response` and no step writes `cfg`. -/
structure State where
  /-- The width the block is elaborated at (R8). -/
  cfg : Config
  /-- `constructed`, and `state` and `taps` while it is 1 (R20). -/
  slot : Slot cfg.W
  /-- The input ports in the clock cycles to come, the next cycle first (R14, R49, R60). -/
  port : List (Pins cfg.W)
  /-- The response shown in the cycle just executed; absent after a reset cycle, whose outputs are not meaningful (R64, R210). -/
  response : Option (Response cfg.W)
  deriving DecidableEq, Repr

/-- Reasons to fault: none. "The block never enters an error state, a halted state or a locked state" (R185); an error is a
response of a next state (R180), so nothing raises a fault and the type is empty. -/
inductive Fault
  deriving DecidableEq, Repr

/-- Reasons to refuse a command. -/
inductive Refusal where
  /-- The instruction has no meaning in the model yet; raised by `exec` only, and by no arm of it now. Safe. -/
  | notModelled (mnemonic : String)
  /-- `op = 0b11`: the spec gives it no meaning and asks a model to refuse it (R66, R216, U3). Raised by `step`. Safe. -/
  | reservedOpcode
  /-- A `CONSTRUCT` whose operands are of another width than the block's: "not an operand of this block", refused at the
  boundary (R45, D8). Raised by `execConstruct`; no step raises it, since the ports are `W` wires wide. Safe. -/
  | operandWidth
  deriving DecidableEq, Repr

/-- The state right after reset of a block elaborated at `c`, with nothing yet driven on its ports: `constructed = 0`, and
`state` and `taps` hold no value (R31, R210). -/
def State.resetOf (c : Config) : State :=
  { cfg := c, slot := .empty, port := [], response := none }

/-- The reset state the host starts from, at the opcode table's width. -/
def State.reset : State := State.resetOf Config.table

end Sys2Proof.Machine
end

