-- ==== Sys2Proof/Machine/Operands.lean ====
section
/-! DEFINITION. The operands of CONSTRUCT: tap normalisation and the two checks, in the source's order (spec 41_construct.md
R100 to R105; 30_encoding.md R63). -/

namespace Sys2Proof.Machine

/-- Tap normalisation: `reversedTaps = BitReverse_W(taps_in)` (R102, R63). -/
def normaliseTaps {W : Nat} (tapsIn : Word W) : Word W := bitReverse tapsIn

/-- Lines 1 to 3 of CONSTRUCT: the seed check, the normalisation, the tap check. Answers the normalised mask, or the one
error of the first check that fails (R100, R101, R103, R105). -/
def checkOperands {W : Nat} (seed tapsIn : Word W) : Except ErrorKind (Word W) :=
  if seed = 0 then .error .seedIsZero
  else if (normaliseTaps tapsIn).getLsbD 0 then .ok (normaliseTaps tapsIn)
  else .error .tapsMustHaveMsbSet

end Sys2Proof.Machine
end

