-- ==== Sys2Proof/Machine/Flags.lean ====
section
/-! DEFINITION. The 1-bit flag `constructed` and the two registers as the spec names them (spec 10_state.md R20, R22, R23,
R28, R29). The block has no condition codes and no other flag (R28). -/

namespace Sys2Proof.Machine

/-- The flag `constructed` of a slot (R28). -/
def Slot.constructed {W : Nat} : Slot W → Bool
  | .empty => false
  | .holds _ _ => true

/-- The register `state`; it holds no value while `constructed = 0` (R22, R26). -/
def Slot.state? {W : Nat} : Slot W → Option (Word W)
  | .empty => none
  | .holds x _ => some x

/-- The register `taps`; it holds no value while `constructed = 0` (R23, R26). -/
def Slot.taps? {W : Nat} : Slot W → Option (Word W)
  | .empty => none
  | .holds _ t => some t

/-- The alias of R20: `x[0]` is `state` and `x[1]` is `taps`. -/
def Slot.x? {W : Nat} (sl : Slot W) : Fin 2 → Option (Word W)
  | 0 => sl.state?
  | 1 => sl.taps?

/-- The field `TAPMASK_LSB` of `taps`, bit 0 (R29). -/
def tapmaskLsb {W : Nat} (taps : Word W) : Bool := taps.getLsbD 0

/-- The field `TAPMASK_HI` of `taps`, bits `W-1 : 1` (R29). -/
def tapmaskHi {W : Nat} (taps : Word W) : BitVec (W - 1) := taps.extractLsb' 1 (W - 1)

/-- The flag `constructed` of the block (R28). -/
def State.constructed (s : State) : Bool := s.slot.constructed

end Sys2Proof.Machine
end

