-- ==== Sys2Proof/Decode.lean ====
section
/-! DEFINITION. The command word and its decoder and encoder (spec 30_encoding.md R61, R62, R63, R66 to R68, R71). -/

namespace Sys2Proof

/-- Why a command word is no command. -/
inductive DecodeError where
  /-- The reserved code `op = 0b11`, which the spec gives no meaning (R66). -/
  | reservedOpcode
  deriving DecidableEq, Repr

/-- `cmd = op ‖ seed ‖ taps_in` (R61). -/
def CmdWord.make {W : Nat} (op : BitVec 2) (seed tapsIn : Word W) : CmdWord W :=
  (op ++ seed ++ tapsIn).cast (by omega)

/-- `cmd[2W+1 : 2W]` (R61). -/
def CmdWord.op {W : Nat} (cmd : CmdWord W) : BitVec 2 := cmd.extractLsb' (2 * W) 2

/-- `cmd[2W-1 : W]`, used exactly as presented (R61, R63). -/
def CmdWord.seed {W : Nat} (cmd : CmdWord W) : Word W := cmd.extractLsb' W W

/-- `cmd[W-1 : 0]`, un-reversed (R61, R63). -/
def CmdWord.tapsIn {W : Nat} (cmd : CmdWord W) : Word W := cmd.extractLsb' 0 W

/-- The opcode map (R62). It is total on the command words (R68), ignores the operand bits of `IDLE` and `NEXT` (R67), and
rejects `0b11` by name (R66). -/
def decode (W : Nat) (cmd : CmdWord W) : Except DecodeError Instr :=
  if cmd.op = 0b00#2 then .ok .idle
  else if cmd.op = 0b01#2 then .ok (.construct W cmd.seed cmd.tapsIn)
  else if cmd.op = 0b10#2 then .ok .next
  else .error .reservedOpcode

/-- The command word of a command of a width-`W` block, with zero operand bits for `IDLE` and `NEXT` as the spec's examples
write them (R71); `none` for a command of another width, which has no word here (R45). -/
def encode (W : Nat) : Instr → Option (CmdWord W)
  | .idle => some (CmdWord.make 0b00#2 0 0)
  | .construct V seed tapsIn =>
    if h : V = W then some (CmdWord.make 0b01#2 (seed.cast h) (tapsIn.cast h)) else none
  | .next => some (CmdWord.make 0b10#2 0 0)

/-- The command that a word of spec/opcode_table.json stands for. The table writes its words at `W = 4` (ten bits, whatever
whole number of bytes `nbits` rounds them to); a number that does not fit the ten wires is no command word (R45, R61). -/
def decodeTableWord (_nbits w : Nat) : Option Instr :=
  if w < 2 ^ (2 + 2 * Config.table.W) then
    match decode Config.table.W (BitVec.ofNat _ w) with
    | .ok i => some i
    | .error _ => none
  else none

end Sys2Proof
end

