-- ==== Sys2Proof/Machine/Ports.lean ====
section
/-! DEFINITION. The input pins as a command word, and the response as the output pins (spec 30_encoding.md R60, R61, R64;
60_exceptions.md R181). -/

namespace Sys2Proof.Machine

/-- The command word on the pins: three buses presented in parallel (R61). -/
def Pins.word {W : Nat} (p : Pins W) : CmdWord W := CmdWord.make p.op p.seed p.tapsIn

/-- The pins that present a command word, with `rst = 0` (R60, R61). -/
def Pins.ofWord {W : Nat} (cmd : CmdWord W) : Pins W :=
  { rst := false, op := cmd.op, seed := cmd.seed, tapsIn := cmd.tapsIn }

/-- The pins of a cycle in which the host makes no call: `op = 0b00`, every wire low (R160, D19). -/
def Pins.idle (W : Nat) : Pins W := { rst := false, op := 0b00#2, seed := 0, tapsIn := 0 }

/-- The pins that present `NEXT`, operand wires low (R71). -/
def Pins.next (W : Nat) : Pins W := { rst := false, op := 0b10#2, seed := 0, tapsIn := 0 }

/-- The pins that present `CONSTRUCT seed, taps_in` (R71). -/
def Pins.construct {W : Nat} (seed tapsIn : Word W) : Pins W :=
  { rst := false, op := 0b01#2, seed := seed, tapsIn := tapsIn }

/-- The pins that present a command of a width-`W` block; `none` for a command of another width (R45). -/
def Pins.ofInstr (W : Nat) (i : Instr) : Option (Pins W) := (encode W i).map Pins.ofWord

/-- The `status` code of an error kind (R181). -/
def ErrorKind.code : ErrorKind → BitVec 2
  | .seedIsZero => 0b01#2
  | .tapsMustHaveMsbSet => 0b10#2
  | .notConstructed => 0b11#2

/-- The `status` output: `0b00` means no error (R64). -/
def Response.status {W : Nat} : Response W → BitVec 2
  | .none => 0b00#2
  | .ok => 0b00#2
  | .value _ => 0b00#2
  | .err kind => kind.code

/-- The `value` output where the spec gives it a meaning, which is in a `Value(v)` response only (R64, U4). -/
def Response.value? {W : Nat} : Response W → Option (Word W)
  | .value v => some v
  | .none => Option.none
  | .ok => Option.none
  | .err _ => Option.none

end Sys2Proof.Machine
end

