-- ==== Sys2Proof/Machine/Ops.lean ====
section
/-! DEFINITION. The named operations on the state that the meanings and the step share. The block has no memory (spec
20_memory.md R40), so there is no operation over one. -/

namespace Sys2Proof.Machine

/-- Answer the command: put a response on the output ports (R64). -/
def State.respond (s : State) (r : Response s.cfg.W) : State := { s with response := some r }

/-- Taking an error, the block's whole counterpart of an exception: the response is `Err(kind)` and nothing else happens; no
control transfer, no handler, nothing saved, no state element changed (R180, R182, R184). There is no return from it: the
next command runs normally (R185). -/
def State.respondErr (s : State) (kind : ErrorKind) : State := s.respond (.err kind)

/-- Write `state`, `taps` and `constructed <- 1` in one indivisible step (R47, R104); with the old `taps` it is NEXT's write of
`state` alone (R141). -/
def State.hold (s : State) (x t : Word s.cfg.W) : State := { s with slot := .holds x t }

/-- What a clock edge with `rst = 1` does: `constructed <- 0`, `state` and `taps` hold no value, and the outputs are not
meaningful (R210, R212). -/
def State.resetBlock (s : State) : State := { s with slot := .empty, response := none }

/-- What the host drives on the pins in the next cycle; when it has nothing more to drive it makes no call, which is `IDLE`
(R160, D19; DESIGN CHOICE, assumption 3). -/
def State.pins (s : State) : Pins s.cfg.W :=
  match s.port with
  | [] => Pins.idle s.cfg.W
  | p :: _ => p

/-- The cycle on the pins is taken; the host's later cycles remain (R49). -/
def State.takeCycle (s : State) : State := { s with port := s.port.tail }

/-- Let the host present the given cycles next, before whatever it was going to present. -/
def State.present (s : State) (ps : List (Pins s.cfg.W)) : State := { s with port := ps ++ s.port }

end Sys2Proof.Machine
end

