-- ==== Sys2Proof/Machine/Commands.lean ====
section
/-! DEFINITION. The meanings of the three commands (spec 44_idle_and_sequence.md R160; 41_construct.md R100; 43_next.md
R140). Each command is atomic (20_memory.md R47). -/

namespace Sys2Proof.Machine

/-- `IDLE`: respond `None`; no state element is read or written (R160). -/
def execIdle (s : State) : Host.Outcome State Fault Refusal :=
  .next (s.respond .none)

/-- CONSTRUCT on operands of the block's width: an error responds and writes nothing (R106); success writes the normalised
mask, the seed advanced by the warm-up step, and `constructed`, and responds `Ok` (R104). The old instance has no influence
(R107). -/
def constructWith (s : State) (seed tapsIn : Word s.cfg.W) : State :=
  match checkOperands seed tapsIn with
  | .error kind => s.respondErr kind
  | .ok t => (s.hold (lfsrStep seed t) t).respond .ok

/-- `CONSTRUCT seed, taps_in` (R100). Operands of another width are no operands of this block and are refused (R45, D8). -/
def execConstruct (W : Nat) (seed tapsIn : Word W) (s : State) : Host.Outcome State Fault Refusal :=
  if h : W = s.cfg.W then .next (constructWith s (seed.cast h) (tapsIn.cast h))
  else .refused .operandWidth

/-- `NEXT`: with an instance, respond the value before the step and advance `state` by exactly one step (R141); without one,
respond `Err(NotConstructed)` and change nothing (R142). -/
def execNext (s : State) : Host.Outcome State Fault Refusal :=
  match s.slot with
  | .empty => .next (s.respondErr .notConstructed)
  | .holds x t => .next ((s.hold (lfsrStep x t) t).respond (.value x))

end Sys2Proof.Machine
end

