-- ==== Sys2Proof/Machine/Dispatch.lean ====
section
/-! DEFINITION. One arm per command. -/

namespace Sys2Proof.Machine

def exec (i : Instr) (s : State) : Host.Outcome State Fault Refusal :=
  match i with
  | .idle => Sys2Proof.Machine.execIdle s
  | .construct W seed tapsIn => Sys2Proof.Machine.execConstruct W seed tapsIn s
  | .next => Sys2Proof.Machine.execNext s

end Sys2Proof.Machine
end

