-- ==== Sys2Proof/Machine/Step.lean ====
section
/-! DEFINITION. One step: one rising edge of `clk` (spec 30_encoding.md R60; 70_reset_and_hazards.md R210, R220). -/

namespace Sys2Proof.Machine

/-- One clock cycle. With `rst = 1` the block is reset and whatever is on the other pins is ignored (R210, R219); otherwise the
command on the pins is executed, and the reserved code is refused (R66). -/
def step (s : State) : Host.Outcome State Fault Refusal :=
  if s.pins.rst then .next s.takeCycle.resetBlock
  else
    match decode s.cfg.W s.pins.word with
    | .ok i => exec i s.takeCycle
    | .error .reservedOpcode => .refused .reservedOpcode

/-- Present a command word in the next cycle, in place of what the host was going to drive then. The block fetches nothing
(R27): this stands for the host's choice of its next command (assumption 2). -/
def State.withFetchWord (s : State) (_nbits w : Nat) : State :=
  { s with port := Pins.ofWord (BitVec.ofNat _ w) :: s.port.tail }

end Sys2Proof.Machine
end

