-- ==== Sys2Proof/Machine/Deferred.lean ====
section
/-! DEFINITION. The deferred implementation that the spec allows beside the model (spec 10_state.md R35; U10): the step that a
NEXT owes is applied at the start of the following NEXT. It is not the model, which has no hidden state (R35); it is here so
that the indistinguishability R35 claims can be stated. -/

namespace Sys2Proof.Machine

/-- A block that may owe a step: `owed` is the hidden bit of R35. The rule says when it is set (a NEXT that owes a step) and that a
successful CONSTRUCT discards it; what reset and a NEXT without an instance do to it is the model's (DESIGN CHOICE, assumption 8). -/
structure DeferredState where
  base : State
  owed : Bool
  deriving DecidableEq, Repr

/-- The slot with the owed step applied. -/
def Slot.settle {W : Nat} (owed : Bool) : Slot W → Slot W
  | .empty => .empty
  | .holds x t => .holds (if owed then lfsrStep x t else x) t

/-- The state of the model that a deferred block stands for. -/
def DeferredState.settle (d : DeferredState) : State :=
  { d.base with slot := d.base.slot.settle d.owed }

/-- A deferred NEXT: apply the step owed, return the value, and owe a step. Without an instance it fails and keeps the bit, as every
failing command does; R35 is silent there (DESIGN CHOICE, assumption 8). -/
def deferredNext (s : State) (owed : Bool) : DeferredState :=
  match s.slot with
  | .empty => ⟨s.respondErr .notConstructed, owed⟩
  | .holds x t =>
    let now := if owed then lfsrStep x t else x
    ⟨(s.hold now t).respond (.value now), true⟩

/-- A deferred CONSTRUCT: success discards any step owed, because it overwrites `state` (R35); failure keeps it. -/
def deferredConstruct (s : State) (owed : Bool) (seed tapsIn : Word s.cfg.W) : DeferredState :=
  match checkOperands seed tapsIn with
  | .error kind => ⟨s.respondErr kind, owed⟩
  | .ok t => ⟨(s.hold (lfsrStep seed t) t).respond .ok, false⟩

/-- One clock cycle of a deferred block. A reset cycle clears the bit; R35 is silent there (DESIGN CHOICE, assumption 8). -/
def deferredStep (d : DeferredState) : Host.Outcome DeferredState Fault Refusal :=
  let p := d.base.pins
  let s := d.base.takeCycle
  if p.rst then .next ⟨s.resetBlock, false⟩
  else if p.op = 0b00#2 then .next ⟨s.respond .none, d.owed⟩
  else if p.op = 0b01#2 then .next (deferredConstruct s d.owed p.seed p.tapsIn)
  else if p.op = 0b10#2 then .next (deferredNext s d.owed)
  else .refused .reservedOpcode

/-- `n` cycles of a deferred block. -/
def deferredSteps : Nat → DeferredState → Host.Outcome DeferredState Fault Refusal
  | 0, d => .next d
  | n + 1, d =>
    match deferredStep d with
    | .next e => deferredSteps n e
    | .fault r => .fault r
    | .refused r => .refused r

end Sys2Proof.Machine
end

