-- ==== Sys2Proof/Machine/Run.lean ====
section
/-! DEFINITION. Runs of one block and of several blocks (spec 70_reset_and_hazards.md R222; 20_memory.md R49, R55;
60_exceptions.md R194). -/

namespace Sys2Proof.Machine

/-- `n` steps, stopping at the first refusal: the block executes the host's cycles one at a time in the order the host presents
them (R49). -/
def steps : Nat → State → Host.Outcome State Fault Refusal
  | 0, s => .next s
  | n + 1, s =>
    match step s with
    | .next t => steps n t
    | .fault r => .fault r
    | .refused r => .refused r

/-- A response as the host records it, with the width of the block that gave it. -/
structure Answer where
  W : Nat
  response : Response W
  deriving DecidableEq, Repr

/-- What the host reads after a cycle: the response to the command executed in it, and nothing after a reset cycle, in which no
command is executed (R64, R210). -/
def State.answers (s : State) : List Answer :=
  match s.response with
  | none => []
  | some r => [⟨s.cfg.W, r⟩]

/-- The result of a run: "the list of responses and the state after the last command" (R222). -/
structure RunResult where
  responses : List Answer
  last : State
  deriving DecidableEq, Repr

/-- Put the responses of a cycle in front of those of the rest of the run. -/
def prependAnswers (answers : List Answer) :
    Host.Outcome RunResult Fault Refusal → Host.Outcome RunResult Fault Refusal
  | .next q => .next ⟨answers ++ q.responses, q.last⟩
  | .fault r => .fault r
  | .refused r => .refused r

/-- A run of `n` cycles with its result. A refused command leaves the whole run without one: "nothing can be proved of a command
stream that contains it" (R66). -/
def runFrom : Nat → State → Host.Outcome RunResult Fault Refusal
  | 0, s => .next ⟨[], s⟩
  | n + 1, s =>
    match step s with
    | .next t => prependAnswers t.answers (runFrom n t)
    | .fault r => .fault r
    | .refused r => .refused r

/-- A run in the sense of R222: a finite list of commands applied in order from the reset state of a block. -/
def runCommands (c : Config) (ps : List (Pins c.W)) : Host.Outcome RunResult Fault Refusal :=
  runFrom ps.length ((State.resetOf c).present ps)

/-- One more cycle of a block that may have stopped already. -/
def advance : Host.Outcome State Fault Refusal → Host.Outcome State Fault Refusal
  | .next s => step s
  | .fault r => .fault r
  | .refused r => .refused r

/-- Several blocks side by side: each entry of the schedule gives the block of that index its next cycle. Two blocks share
nothing (R55), so the whole is a list of blocks. -/
def runSchedule : List Nat → List (Host.Outcome State Fault Refusal) → List (Host.Outcome State Fault Refusal)
  | [], blocks => blocks
  | k :: schedule, blocks => runSchedule schedule (blocks.modify k advance)

/-- `n` cycles of one block on its own. -/
def advanceN : Nat → Host.Outcome State Fault Refusal → Host.Outcome State Fault Refusal
  | 0, o => o
  | n + 1, o => advanceN n (advance o)

end Sys2Proof.Machine
end

