-- ==== Sys2Proof/Machine/Text.lean ====
section
/-! DEFINITION. The textual syntax of a command stream (spec 30_encoding.md R69, R71; 92_eei_decisions.md D22), over lists of
characters. The grammar does not say which characters separate tokens: the model takes the space, the tab and the carriage
return, and ends the last line at the end of the text. It does not define `decimal`, `hex-digits`, `binary-digits`, the
form of `<n>` in the head comment or what may stand around it either. Each of these points is marked at the definition that
settles it (DESIGN CHOICE, assumption 5). -/

namespace Sys2Proof.Machine

/-- The value of a digit character in base 2, 10 or 16; hexadecimal digits in either case (DESIGN CHOICE, assumption 5). -/
def digitValue (base : Nat) (c : Char) : Option Nat :=
  let n := c.toNat
  let v :=
    if 48 ≤ n ∧ n ≤ 57 then n - 48
    else if 97 ≤ n ∧ n ≤ 102 then n - 87
    else if 65 ≤ n ∧ n ≤ 70 then n - 55
    else 16
  if v < base then some v else none

/-- The digits after the first; underscores are allowed between digits, so the last character is a digit. A run of several
underscores between two digits is accepted (DESIGN CHOICE, assumption 5). -/
def numeralTail (base : Nat) : Nat → Bool → List Char → Option Nat
  | n, endsInDigit, [] => if endsInDigit then some n else none
  | n, _, c :: cs =>
    if c = '_' then numeralTail base n false cs
    else
      match digitValue base c with
      | some d => numeralTail base (n * base + d) true cs
      | none => none

/-- A nonempty run of digits in a base. Leading zeros are accepted, in a decimal numeral too (`007` is 7): R69 does not define
`decimal` (DESIGN CHOICE, assumption 5). -/
def digitsValue (base : Nat) : List Char → Option Nat
  | [] => none
  | c :: cs =>
    match digitValue base c with
    | some d => numeralTail base d true cs
    | none => none

/-- `numeral := decimal | '0x' hex-digits | '0b' binary-digits` (R69). -/
def numeralValue : List Char → Option Nat
  | '0' :: 'x' :: cs => digitsValue 16 cs
  | '0' :: 'b' :: cs => digitsValue 2 cs
  | cs => digitsValue 10 cs

/-- A numeral as an operand of a width-`W` block: it "must be less than `2^W`, otherwise the line is not a command of a
width-`W` block" (R69). -/
def operandOfText (W : Nat) (cs : List Char) : Option (Word W) :=
  match numeralValue cs with
  | some n => if n < 2 ^ W then some (BitVec.ofNat W n) else none
  | none => none

/-- The characters that separate tokens (DESIGN CHOICE, assumption 5). -/
def isBlankChar (c : Char) : Bool := c == ' ' || c == '\t' || c == '\r'

/-- Put a finished token in front, if it has any character. -/
def pushToken (token : List Char) (tokens : List (List Char)) : List (List Char) :=
  if token.isEmpty then tokens else token.reverse :: tokens

/-- The tokens of a line before its comment: a comma is a token, and so is each run of other characters that are not blank.
`token` holds the characters of the unfinished token, last one first. -/
def tokensOf (token : List Char) : List Char → List (List Char)
  | [] => pushToken token []
  | c :: cs =>
    if c = ';' then pushToken token []
    else if c = ',' then pushToken token ([','] :: tokensOf [] cs)
    else if isBlankChar c then pushToken token (tokensOf [] cs)
    else tokensOf (c :: token) cs

/-- `command := 'IDLE' | 'NEXT' | 'CONSTRUCT' numeral ',' numeral`, with `seed` first (R69). -/
def commandOfTokens (W : Nat) : List (List Char) → Option Instr
  | [['I', 'D', 'L', 'E']] => some .idle
  | [['N', 'E', 'X', 'T']] => some .next
  | [['C', 'O', 'N', 'S', 'T', 'R', 'U', 'C', 'T'], a, [','], b] =>
    match operandOfText W a, operandOfText W b with
    | some seed, some tapsIn => some (.construct W seed tapsIn)
    | _, _ => none
  | _ => none

/-- `line := [ command ] [ ';' comment ] newline`: `some none` for a line without a command, `none` for what is no line of a
width-`W` program (R69). -/
def parseLine (W : Nat) (line : List Char) : Option (Option Instr) :=
  match tokensOf [] line with
  | [] => some none
  | tokens => (commandOfTokens W tokens).map some

/-- The lines of a text; `line` holds the characters of the unfinished line, last one first. The last line may end at the end of
the text instead of a newline (DESIGN CHOICE, assumption 5). -/
def linesOf (line : List Char) : List Char → List (List Char)
  | [] => [line.reverse]
  | c :: cs => if c = '\n' then line.reverse :: linesOf [] cs else linesOf (c :: line) cs

/-- The commands of a list of lines, in order. -/
def parseLines (W : Nat) : List (List Char) → Option (List Instr)
  | [] => some []
  | line :: rest =>
    match parseLine W line, parseLines W rest with
    | some (some i), some is => some (i :: is)
    | some none, some is => some is
    | _, _ => none

/-- `program := { line }` (R69). -/
def parseProgram (W : Nat) (text : List Char) : Option (List Instr) := parseLines W (linesOf [] text)

/-- A text assembled to the cycles that present its commands, each with the word of R71. -/
def assemble (W : Nat) (text : List Char) : Option (List (Pins W)) :=
  (parseProgram W text).bind fun is => is.mapM (Pins.ofInstr W)

/-- The text of a line that is a comment only. -/
def commentOf : List Char → Option (List Char)
  | [] => none
  | c :: cs => if c = ';' then some cs else if isBlankChar c then commentOf cs else none

/-- The width of a program, stated once at its head as `; W = <n>` (R69); none below 2 (R8). R69 does not give the form of `<n>`
nor where the head is: any numeral is accepted (decimal, `0x`, `0b`, underscores), on the first line. Nor does it say
what may stand around it: blanks may stand before the `;` and must stand around the `=`, a second `;` begins a further comment
(`; W = 4 ; note`), and any other text after `<n>` makes the line no head (all DESIGN CHOICE, assumption 5). -/
def headWidth (text : List Char) : Option Config :=
  match (linesOf [] text).head? with
  | some line =>
    match (commentOf line).map (tokensOf []) with
    | some [['W'], ['='], n] => (numeralValue n).bind Config.ofWidth?
    | _ => none
  | none => none

/-- A whole program: the width from its head, and the cycles that present its commands at that width (R69, R71). A text without a
head is no program, and a comment of that form on a later line is a comment like any other (DESIGN CHOICE, assumption 5). -/
def assembleProgram (text : List Char) : Option ((c : Config) × List (Pins c.W)) :=
  (headWidth text).bind fun c => (assemble c.W text).map fun ps => ⟨c, ps⟩

/-- The binary numeral of a value with exactly `n` digits, the most significant first (R11). -/
def binaryDigits {W : Nat} (v : Word W) : Nat → List Char
  | 0 => []
  | n + 1 => (if v.getLsbD n then '1' else '0') :: binaryDigits v n

/-- A `W`-bit operand as the spec writes it: `0b` and `W` digits. -/
def renderOperand {W : Nat} (v : Word W) : List Char := '0' :: 'b' :: binaryDigits v W

/-- A command as a line of text (R69). -/
def renderCommand : Instr → List Char
  | .idle => ['I', 'D', 'L', 'E']
  | .construct _ seed tapsIn =>
    ['C', 'O', 'N', 'S', 'T', 'R', 'U', 'C', 'T', ' '] ++ renderOperand seed ++ [',', ' '] ++ renderOperand tapsIn
  | .next => ['N', 'E', 'X', 'T']

end Sys2Proof.Machine
end

