-- ==== Sys2Proof/Safety.lean ====
section
/-! DEFINITION. The words the statements use for good states, good inputs and the sequence of states (spec 10_state.md R25;
41_construct.md R100; 70_reset_and_hazards.md R216; 44_idle_and_sequence.md R162 to R164). -/

namespace Sys2Proof.Machine

/-- The two invariants of R25, which hold while `constructed = 1`: `state != 0` and `taps[0] = 1`. Nothing is said while it is
0 (R26). -/
def Slot.Inv {W : Nat} : Slot W → Prop
  | .empty => True
  | .holds x t => x ≠ 0 ∧ t.getLsbD 0 = true

/-- The invariants of R25 for the block. -/
def State.Inv (s : State) : Prop := s.slot.Inv

/-- "Success: exactly when `seed != 0` and `taps_in[W-1] == 1`" (R100), in the host's terms. -/
def accepted {W : Nat} (seed tapsIn : Word W) : Bool := seed != 0 && tapsIn.getLsbD (W - 1)

/-- What the host may present in a cycle after the first reset: anything but the reserved code (R216). -/
def Pins.allowed {W : Nat} (p : Pins W) : Bool := p.rst || p.op != 0b11#2

/-- The cycle presents a `CONSTRUCT` that succeeds. -/
def Pins.constructs {W : Nat} (p : Pins W) : Bool :=
  !p.rst && p.op == 0b01#2 && accepted p.seed p.tapsIn

/-- A cycle that the host may present and that neither resets the block nor replaces its instance: an `IDLE`, a `NEXT`, or a
`CONSTRUCT` that fails. -/
def Pins.keepsInstance {W : Nat} (p : Pins W) : Bool := !p.rst && p.allowed && !p.constructs

/-- The cycle presents a `NEXT`. -/
def Pins.isNext {W : Nat} (p : Pins W) : Bool := !p.rst && p.op == 0b10#2

/-- How many cycles of a list present a `NEXT`. -/
def countNext {W : Nat} (ps : List (Pins W)) : Nat := ps.countP Pins.isNext

/-- `P` is the period of the orbit of `seed` under the mask `t`: the least `P ≥ 1` with `Step^P(seed, t) = seed` (R162). -/
def IsPeriod {W : Nat} (t seed : Word W) (P : Nat) : Prop :=
  1 ≤ P ∧ stepPow t P seed = seed ∧ ∀ k, 1 ≤ k → k < P → stepPow t k seed ≠ seed

/-- `taps_in` is a maximal tap value, judged as the spec does by the period of the seed 1 (R163, R164). -/
def MaximalTaps {W : Nat} (tapsIn : Word W) : Prop :=
  IsPeriod (normaliseTaps tapsIn) (1#W) (2 ^ W - 1)

end Sys2Proof.Machine
end

