-- ==== Sys2Proof/WellFormed.lean ====
section
/-! DEFINITION. Which commands are commands of a given block (spec 20_memory.md R45; 30_encoding.md R68, R69). -/

namespace Sys2Proof

/-- A command belongs to the block when its operands have the block's width: "a value of another width is not an operand
of this block" (R45, D8). Nothing else is checked: every `W`-bit seed and tap value may be presented (R68). -/
def Instr.wf (c : Config) : Instr → Bool
  | .idle => true
  | .construct W _ _ => W == c.W
  | .next => true

end Sys2Proof
end

