-- ==== Sys2Proof/Certificates/Slice0/Obligations.lean ====
section
/-! DEFINITION. The statements for the provers, each from the numbered rules its docstring names. Where a statement takes the
next cycles from the host it writes `s.present ps`; every `s` in it is arbitrary, in every width `W ≥ 2`. -/

open Sys2Proof Sys2Proof.Machine

/-! ## Reset -/

/-- R31: after reset `constructed` is 0 and neither register holds a value, at every width. -/
def Obligations.ResetHoldsNoInstance : Prop :=
  ∀ c : Config, (State.resetOf c).cfg = c ∧ (State.resetOf c).constructed = false ∧
    (State.resetOf c).slot.state? = none ∧ (State.resetOf c).slot.taps? = none

/-- R210: one or more reset cycles, from any state and whatever is on the other pins, leave the reset state and no response, and
the first cycle with `rst = 0` executes its command from there. -/
def Obligations.ResetCyclesEndTheInstance : Prop :=
  ∀ (s : State) (ps : List (Pins s.cfg.W)), ps ≠ [] → (∀ p ∈ ps, p.rst = true) →
    steps ps.length (s.present ps) = .next { s with slot := .empty, response := none } ∧
    ∀ (p : Pins s.cfg.W) (i : Instr), p.rst = false → decode s.cfg.W p.word = .ok i →
      steps (ps.length + 1) (s.present (ps ++ [p])) = exec i { s with slot := .empty, response := none }

/-! ## The step and the encoding -/

/-- A step executes the command that the pins present, on the state in which that cycle is taken (R14, R49). -/
def Obligations.StepRunsThePresentedCommand : Prop :=
  ∀ (s : State) (p : Pins s.cfg.W) (i : Instr), p.rst = false → decode s.cfg.W p.word = .ok i →
    step (s.present [p]) = exec i s

/-- When the host has nothing more to drive, the step is an `IDLE`: the model's choice (assumption 3), after R160 ("the host makes
no call in this cycle"). -/
def Obligations.NothingPresentedIsIdle : Prop :=
  ∀ s : State, s.port = [] → step s = exec .idle s

/-- R66: the reserved code is refused in every state, with any operand bits. -/
def Obligations.ReservedCodeIsRefused : Prop :=
  ∀ (s : State) (p : Pins s.cfg.W), p.rst = false → p.op = 0b11#2 →
    step (s.present [p]) = .refused .reservedOpcode

/-- R68, R185, R218: the reserved code is the only thing that stops a step; in particular the width refusal never does, and there
is no fault. (With nothing on the port the step is an `IDLE`: assumption 3.) -/
def Obligations.OnlyTheReservedCodeStops : Prop :=
  ∀ s : State, (∀ r, step s ≠ .fault r) ∧
    ∀ r, step s = .refused r ↔ s.pins.rst = false ∧ s.pins.op = 0b11#2 ∧ r = .reservedOpcode

/-- Words of R71 and of 95_test_vectors.md sections 7 and 9 decode to the commands the spec says they are. -/
def Obligations.SpecWordsDecode : Prop :=
  decode 4 0x11D#10 = .ok (.construct 4 0b0001#4 0b1101#4) ∧
  decode 4 0x200#10 = .ok .next ∧
  decode 4 0x000#10 = .ok .idle ∧
  decode 8 0x1A5B8#18 = .ok (.construct 8 0xA5#8 0xB8#8) ∧
  decode 8 0x2A5B8#18 = .ok .next ∧
  decode 8 0x0FFFF#18 = .ok .idle ∧
  decode 8 0x30000#18 = .error .reservedOpcode

/-- A word of the opcode table placed on the pins of the host's reset state runs as the command that `decodeTableWord` reads from it,
and is refused where it reads none: the model's choice of width and of how a program comes to run (assumption 2). -/
def Obligations.TableWordRunsAfterReset : Prop :=
  ∀ nbits w : Nat, w < 2 ^ (2 + 2 * Config.table.W) →
    (∀ i, decodeTableWord nbits w = some i → step (State.reset.withFetchWord nbits w) = exec i State.reset) ∧
    (decodeTableWord nbits w = none → step (State.reset.withFetchWord nbits w) = .refused .reservedOpcode)

/-- R61: the place of every bit of the command word. -/
def Obligations.CommandWordLayout : Prop :=
  ∀ (W : Nat) (op : BitVec 2) (seed tapsIn : Word W) (i : Nat),
    (CmdWord.make op seed tapsIn).getLsbD i =
      if i < W then tapsIn.getLsbD i
      else if i < 2 * W then seed.getLsbD (i - W)
      else op.getLsbD (i - 2 * W)

/-- R62, R67: the opcode map, with every operand pattern; `IDLE` and `NEXT` ignore theirs. -/
def Obligations.OpcodeMap : Prop :=
  ∀ (W : Nat) (seed tapsIn : Word W),
    decode W (CmdWord.make 0b00#2 seed tapsIn) = .ok .idle ∧
    decode W (CmdWord.make 0b01#2 seed tapsIn) = .ok (.construct W seed tapsIn) ∧
    decode W (CmdWord.make 0b10#2 seed tapsIn) = .ok .next ∧
    decode W (CmdWord.make 0b11#2 seed tapsIn) = .error .reservedOpcode

/-- Every command of a block has a word, and the word decodes to that command, with every operand at every value (R61, R62,
R71). -/
def Obligations.DecodeOfEncode : Prop :=
  ∀ (c : Config) (i : Instr), i.wf c = true → ∃ w, encode c.W i = some w ∧ decode c.W w = .ok i

/-- Whatever decodes is a command of the block, and a `CONSTRUCT` has one word only (R61, R62, R68). -/
def Obligations.EncodeOfDecode : Prop :=
  ∀ (c : Config) (w : CmdWord c.W) (i : Instr), decode c.W w = .ok i →
    i.wf c = true ∧ ∀ (V : Nat) (seed tapsIn : Word V), i = .construct V seed tapsIn → encode c.W i = some w

/-! ## The three commands: results, completion and frame -/

/-- R160: `IDLE` responds `None` in every state and changes nothing else. -/
def Obligations.IdleRespondsNone : Prop :=
  ∀ s : State, exec .idle s = .next { s with response := some .none }

/-- R101, R105: a zero seed fails with `SeedIsZero` whatever the taps, and no other seed does. -/
def Obligations.ConstructRejectsZeroSeed : Prop :=
  ∀ (s : State) (seed tapsIn : Word s.cfg.W),
    (seed = 0 → exec (.construct s.cfg.W seed tapsIn) s = .next { s with response := some (.err .seedIsZero) }) ∧
    (seed ≠ 0 → exec (.construct s.cfg.W seed tapsIn) s ≠ .next { s with response := some (.err .seedIsZero) })

/-- R103: with a nonzero seed, taps without the top bit fail with `TapsMustHaveMsbSet`, 0 among them, and every
`taps_in >= 2^(W-1)` passes. -/
def Obligations.ConstructRejectsTapsWithoutMsb : Prop :=
  ∀ (s : State) (seed tapsIn : Word s.cfg.W), seed ≠ 0 →
    (bitReverse tapsIn).getLsbD 0 = tapsIn.getLsbD (s.cfg.W - 1) ∧
    (tapsIn.getLsbD (s.cfg.W - 1) = false →
      exec (.construct s.cfg.W seed tapsIn) s = .next { s with response := some (.err .tapsMustHaveMsbSet) }) ∧
    (2 ^ (s.cfg.W - 1) ≤ tapsIn.toNat →
      exec (.construct s.cfg.W seed tapsIn) s ≠ .next { s with response := some (.err .tapsMustHaveMsbSet) })

/-- R104, R32, R107: an accepted `CONSTRUCT` stores the reversed taps and the seed advanced by one step, from any state. -/
def Obligations.ConstructStoresTheSteppedSeed : Prop :=
  ∀ (s : State) (seed tapsIn : Word s.cfg.W), seed ≠ 0 → tapsIn.getLsbD (s.cfg.W - 1) = true →
    exec (.construct s.cfg.W seed tapsIn) s =
      .next { s with slot := .holds (lfsrStep seed (bitReverse tapsIn)) (bitReverse tapsIn), response := some .ok }

/-- Operands of another width are refused (R45, D8). -/
def Obligations.ConstructOfAnotherWidthIsRefused : Prop :=
  ∀ (s : State) (W : Nat) (seed tapsIn : Word W), W ≠ s.cfg.W →
    exec (.construct W seed tapsIn) s = .refused .operandWidth

/-- R141: with an instance, `NEXT` returns the value before the step and advances `state` by one step. -/
def Obligations.NextReturnsThenSteps : Prop :=
  ∀ (s : State) (x t : Word s.cfg.W), s.slot = .holds x t →
    exec .next s = .next { s with slot := .holds (lfsrStep x t) t, response := some (.value x) }

/-- R142: without an instance, `NEXT` responds `NotConstructed` and changes nothing. -/
def Obligations.NextWithoutInstance : Prop :=
  ∀ s : State, s.slot = .empty → exec .next s = .next { s with response := some (.err .notConstructed) }

/-- The frame of every command: only the slot and the response can change; `IDLE` and a failing `CONSTRUCT` keep the slot whole,
and `NEXT` keeps `taps` and `constructed` (R22, R23, R33, R146). There is no memory (R40). -/
def Obligations.CommandFrame : Prop :=
  ∀ (i : Instr) (s t : State), exec i s = .next t →
    ∃ (sl : Slot s.cfg.W) (r : Response s.cfg.W), t = { s with slot := sl, response := some r } ∧
      (i = .idle → sl = s.slot) ∧
      (i = .next → sl.taps? = s.slot.taps? ∧ sl.constructed = s.slot.constructed) ∧
      (∀ (V : Nat) (seed tapsIn : Word V), i = .construct V seed tapsIn → accepted seed tapsIn = false → sl = s.slot)

/-- R184: a failing command changes no state element. -/
def Obligations.FailingCommandChangesNothing : Prop :=
  ∀ (i : Instr) (s t : State) (kind : ErrorKind), exec i s = .next t → t.response = some (.err kind) →
    t = { s with response := some (.err kind) }

/-- R186: while an instance exists `IDLE` responds `None`, `NEXT` responds a value, only a `CONSTRUCT` can fail, and its failure
leaves the instance. -/
def Obligations.NoErrorAfterConstruction : Prop :=
  ∀ s : State, s.constructed = true →
    (∃ t, exec .idle s = .next t ∧ t.response = some .none) ∧
    (∃ t v, exec .next s = .next t ∧ t.response = some (.value v)) ∧
    ∀ (i : Instr) (t : State) (kind : ErrorKind), exec i s = .next t → t.response = some (.err kind) →
      (∃ (V : Nat) (seed tapsIn : Word V), i = .construct V seed tapsIn ∧ accepted seed tapsIn = false) ∧
      t = { s with response := some (.err kind) }

/-- R28: the flag `constructed` is 0 after reset, is set by a `CONSTRUCT` that succeeds and by nothing else, is cleared by no
command and by every reset cycle, and decides whether `NEXT` responds `NotConstructed`. -/
def Obligations.ConstructedFlag : Prop :=
  (∀ c, (State.resetOf c).constructed = false) ∧
  (∀ (i : Instr) (s t : State), exec i s = .next t →
    (t.constructed = true ↔ s.constructed = true ∨
      ∃ seed tapsIn : Word s.cfg.W, i = .construct s.cfg.W seed tapsIn ∧ accepted seed tapsIn = true)) ∧
  (∀ (s t : State), s.pins.rst = true → step s = .next t → t.constructed = false) ∧
  (∀ (s t : State), exec .next s = .next t →
    (t.response = some (.err .notConstructed) ↔ s.constructed = false))

/-- R48: `IDLE` and `CONSTRUCT` are idempotent; two `NEXT` advance two steps and return two values. -/
def Obligations.Idempotency : Prop :=
  (∀ (s : State) (p : Pins s.cfg.W), p.rst = false → p.op = 0b00#2 ∨ p.op = 0b01#2 →
    steps 2 (s.present [p, p]) = steps 1 (s.present [p])) ∧
  ∀ (s : State) (x t : Word s.cfg.W), s.slot = .holds x t →
    steps 2 (s.present [Pins.next _, Pins.next _]) =
      .next { s with slot := .holds (lfsrStep (lfsrStep x t) t) t, response := some (.value (lfsrStep x t)) }

/-- R64, R181: the status code of every response, and the kinds in which `value` is meaningful. -/
def Obligations.ResponsePorts : Prop :=
  ∀ (W : Nat) (v : Word W),
    (Response.none : Response W).status = 0b00#2 ∧ (Response.ok : Response W).status = 0b00#2 ∧
    (Response.value v).status = 0b00#2 ∧ (Response.err .seedIsZero : Response W).status = 0b01#2 ∧
    (Response.err .tapsMustHaveMsbSet : Response W).status = 0b10#2 ∧
    (Response.err .notConstructed : Response W).status = 0b11#2 ∧
    ∀ r : Response W, r.value? = some v ↔ r = .value v

/-! ## Whole-machine rules -/

/-- R25: `state != 0` and `taps[0] = 1` hold after every step from every state in which they hold. -/
def Obligations.InvariantsAreKept : Prop :=
  ∀ s t : State, s.Inv → step s = .next t → t.Inv

/-- The invariants of R25 hold in every reset state, where nothing is asked of the registers (R26). -/
def Obligations.InvariantsHoldAtReset : Prop :=
  ∀ c : Config, (State.resetOf c).Inv

/-- R145, R166: from reset, whatever the host presents and however long, no response is the value 0. -/
def Obligations.NextNeverReturnsZero : Prop :=
  ∀ (c : Config) (ps : List (Pins c.W)) (n : Nat) (t : State),
    steps n ((State.resetOf c).present ps) = .next t → t.response ≠ some (.value 0)

/-- R8: no step changes the width, and it is at least 2. -/
def Obligations.WidthIsFixed : Prop :=
  ∀ s t : State, step s = .next t → t.cfg = s.cfg ∧ 2 ≤ s.cfg.W

/-- R65: no command reads an earlier response. -/
def Obligations.ResponseIsNeverRead : Prop :=
  ∀ (s : State) (r : Option (Response s.cfg.W)), step { s with response := r } = step s

/-- R107, R167: from an accepted `CONSTRUCT` on, the whole run is the same whatever the block held before. -/
def Obligations.ConstructForgetsTheOldInstance : Prop :=
  ∀ (s : State) (a b : Slot s.cfg.W) (seed tapsIn : Word s.cfg.W) (ps : List (Pins s.cfg.W)) (n : Nat),
    accepted seed tapsIn = true →
    steps (n + 1) (({ s with slot := a } : State).present (Pins.construct seed tapsIn :: ps)) =
      steps (n + 1) (({ s with slot := b } : State).present (Pins.construct seed tapsIn :: ps))

/-- R217, R160: any number of `IDLE` cycles before a command changes neither its response nor the state it leaves. -/
def Obligations.IdleCyclesDoNotMatter : Prop :=
  ∀ (s : State) (idles : List (Pins s.cfg.W)) (p : Pins s.cfg.W),
    (∀ q ∈ idles, q.rst = false ∧ q.op = 0b00#2) →
    steps (idles.length + 1) (s.present (idles ++ [p])) = step (s.present [p])

/-- R214: from reset and before the first `CONSTRUCT` that succeeds, every command leaves the block without an instance, and a
`NEXT` there responds `NotConstructed`. -/
def Obligations.BeforeTheFirstConstruct : Prop :=
  ∀ (c : Config) (ps : List (Pins c.W)), (∀ p ∈ ps, p.allowed = true ∧ p.constructs = false) →
    (∃ r, steps ps.length ((State.resetOf c).present ps) = .next { State.resetOf c with response := r }) ∧
    steps (ps.length + 1) ((State.resetOf c).present (ps ++ [Pins.next c.W])) =
      .next { State.resetOf c with response := some (.err .notConstructed) }

/-- R143: after an accepted `CONSTRUCT`, NEXT number `k` responds `Step^k(seed, t)` and leaves `Step^(k+1)(seed, t)`; `IDLE`s and
failing `CONSTRUCT`s in between do not count. -/
def Obligations.OutputSequence : Prop :=
  ∀ (s : State) (seed tapsIn : Word s.cfg.W) (ps : List (Pins s.cfg.W)),
    accepted seed tapsIn = true → (∀ p ∈ ps, p.keepsInstance = true) →
    steps (ps.length + 2) (s.present (Pins.construct seed tapsIn :: (ps ++ [Pins.next s.cfg.W]))) =
      .next { s with
        slot := .holds (stepPow (normaliseTaps tapsIn) (countNext ps + 2) seed) (normaliseTaps tapsIn)
        response := some (.value (stepPow (normaliseTaps tapsIn) (countNext ps + 1) seed)) }

/-- R168, R55: in any interleaving, each block ends as if it had run its own cycles alone. -/
def Obligations.BlocksAreIndependent : Prop :=
  ∀ (schedule : List Nat) (blocks : List (Host.Outcome State Fault Refusal)) (k : Nat),
    (runSchedule schedule blocks)[k]? = (blocks[k]?).map (advanceN (schedule.count k))

/-- The deferred implementation and the model are indistinguishable: the same stops, the same responses, and states that agree once
the owed step is applied. R35 claims so of any such implementation; in the one here, what reset and a NEXT without an instance do
to the hidden bit is the model's choice (assumption 8, DESIGN CHOICE). -/
def Obligations.DeferredIsIndistinguishable : Prop :=
  ∀ (n : Nat) (d : DeferredState),
    (∀ e, deferredSteps n d = .next e → steps n d.settle = .next e.settle ∧ e.settle.response = e.base.response) ∧
    (∀ r, deferredSteps n d = .refused r → steps n d.settle = .refused r) ∧
    (∀ t, steps n d.settle = .next t → ∃ e, deferredSteps n d = .next e ∧ e.settle = t)

/-! ## The primitives -/

/-- R84: bit reversal bit by bit, and its listed consequences. -/
def Obligations.BitReverseLaws : Prop :=
  ∀ (W : Nat) (v a b : Word W),
    (∀ i, i < W → (bitReverse v).getLsbD i = v.getLsbD (W - 1 - i)) ∧
    bitReverse (bitReverse v) = v ∧
    bitReverse (0 : Word W) = 0 ∧ bitReverse (BitVec.allOnes W) = BitVec.allOnes W ∧
    bitReverse (1#W <<< (W - 1)) = 1#W ∧ bitReverse (1#W) = 1#W <<< (W - 1) ∧
    popCount (bitReverse v) = popCount v ∧
    bitReverse (bitAnd a b) = bitAnd (bitReverse a) (bitReverse b) ∧
    bitReverse (bitOr a b) = bitOr (bitReverse a) (bitReverse b) ∧
    bitReverse (bitXor a b) = bitXor (bitReverse a) (bitReverse b) ∧ bitReverse (bitNot a) = bitNot (bitReverse a) ∧
    (bitReverse v = v ↔ ∀ i, i < W → v.getLsbD i = v.getLsbD (W - 1 - i))

/-- R86: the parity is the XOR of all the bits, and its listed consequences. -/
def Obligations.ParityIsTheXorFold : Prop :=
  ∀ (W : Nat) (v a b : Word W),
    parity v = xorBelow v.getLsbD W ∧
    parity (0 : Word W) = false ∧
    parity (bitXor a b) = (parity a ^^ parity b) ∧
    (∀ k, k < W → parity (1#W <<< k) = true) ∧
    (parity (BitVec.allOnes W) = true ↔ W % 2 = 1)

/-- R87: rotate right by one bit by bit; no bit is lost or created; `W` rotations are the identity; it is a bijection. -/
def Obligations.RotateLaws : Prop :=
  ∀ (c : Config) (v : Word c.W),
    (rotateRight1 v).getLsbD (c.W - 1) = v.getLsbD 0 ∧
    (∀ i, i < c.W - 1 → (rotateRight1 v).getLsbD i = v.getLsbD (i + 1)) ∧
    popCount (rotateRight1 v) = popCount v ∧
    (rotateRight1^[c.W]) v = v ∧
    Function.Bijective (rotateRight1 (W := c.W)) ∧
    rotateRight1 (0 : Word c.W) = 0 ∧ rotateRight1 (BitVec.allOnes c.W) = BitVec.allOnes c.W

/-! ## The step function -/

/-- R125 (derived in the spec from R121 to R123): the register shifts right by one and the parity of the tapped bits enters at the
top. -/
def Obligations.StepClosedForm : Prop :=
  ∀ (c : Config) (s t : Word c.W),
    (lfsrStep s t).getLsbD (c.W - 1) = parity (s &&& t) ∧
    (∀ i, i < c.W - 1 → (lfsrStep s t).getLsbD i = s.getLsbD (i + 1)) ∧
    lfsrStep s t = (zextBit c.W (parity (s &&& t)) <<< (c.W - 1)) ||| (s >>> 1)

/-- R124 (derived in the spec): the mask bit `taps_in[W-1-i]` selects `state[i]`; with the top bit of `taps_in` set, `state[0]`
always enters the feedback. -/
def Obligations.TappedBitsInTheHostsTerms : Prop :=
  ∀ (c : Config) (s tapsIn : Word c.W),
    feedbackBit s (normaliseTaps tapsIn) =
      xorBelow (fun i => tapsIn.getLsbD (c.W - 1 - i) && s.getLsbD i) c.W ∧
    (tapsIn.getLsbD (c.W - 1) = true →
      feedbackBit (s ^^^ 1#c.W) (normaliseTaps tapsIn) = !feedbackBit s (normaliseTaps tapsIn))

/-- R126 (derived in the spec): zero is a fixed point under every mask. -/
def Obligations.ZeroIsAFixedPoint : Prop :=
  ∀ (W : Nat) (t : Word W), lfsrStep 0 t = 0

/-- R127 (derived in the spec): with `t[0] = 1` the step is one-to-one and onto, with the inverse written out; without it the step
loses `s[0]`. -/
def Obligations.StepIsABijection : Prop :=
  ∀ (c : Config) (t : Word c.W),
    (t.getLsbD 0 = true →
      Function.Bijective (fun s => lfsrStep s t) ∧
      ∀ s, lfsrUnstep (lfsrStep s t) t = s ∧ lfsrStep (lfsrUnstep s t) t = s) ∧
    (t.getLsbD 0 = false → ∀ s, lfsrStep (s ^^^ 1#c.W) t = lfsrStep s t)

/-- R128 (derived in the spec): the step is linear over the XOR of R83. -/
def Obligations.StepIsLinear : Prop :=
  ∀ (W : Nat) (a b t : Word W), lfsrStep (bitXor a b) t = bitXor (lfsrStep a t) (lfsrStep b t)

/-- R129 (derived in the spec): the mask 1 makes the step a pure rotate, and `W` steps return the value. -/
def Obligations.MaskOneRotates : Prop :=
  ∀ (c : Config) (s : Word c.W), lfsrStep s (1#c.W) = rotateRight1 s ∧ stepPow (1#c.W) c.W s = s

/-- R130 (derived in the spec): there is exactly one bit sequence with the given start and recurrence, and the states are a sliding
window over it. -/
def Obligations.StatesAreASlidingWindow : Prop :=
  ∀ (c : Config) (s t : Word c.W),
    (∃! u : Nat → Bool, (∀ i, i < c.W → u i = s.getLsbD i) ∧
      ∀ n, u (n + c.W) = xorBelow (fun i => t.getLsbD i && u (n + i)) c.W) ∧
    ∀ u : Nat → Bool, (∀ i, i < c.W → u i = s.getLsbD i) →
      (∀ n, u (n + c.W) = xorBelow (fun i => t.getLsbD i && u (n + i)) c.W) →
      ∀ k i, i < c.W → (stepPow t k s).getLsbD i = u (k + i)

/-- R109, R110 (derived in the spec), of the command `CONSTRUCT` in every state: the state it leaves in closed form; with seed 1 that
state is `1 << (W-1)` whatever the accepted taps; the taps `1 << (W-1)` are accepted with seed 1 and stored as 1; and no smaller
taps are accepted with any seed. -/
def Obligations.PostConstructionState : Prop :=
  ∀ (s : State) (seed tapsIn : Word s.cfg.W),
    (accepted seed tapsIn = true →
      ∃ x : Word s.cfg.W,
        exec (.construct s.cfg.W seed tapsIn) s =
          .next { s with slot := .holds x (normaliseTaps tapsIn), response := some .ok } ∧
        x.getLsbD (s.cfg.W - 1) = parity (seed &&& normaliseTaps tapsIn) ∧
        ∀ i, i < s.cfg.W - 1 → x.getLsbD i = seed.getLsbD (i + 1)) ∧
    (tapsIn.getLsbD (s.cfg.W - 1) = true →
      exec (.construct s.cfg.W 1#s.cfg.W tapsIn) s =
        .next { s with slot := .holds (1#s.cfg.W <<< (s.cfg.W - 1)) (normaliseTaps tapsIn), response := some .ok }) ∧
    exec (.construct s.cfg.W 1#s.cfg.W (1#s.cfg.W <<< (s.cfg.W - 1))) s =
      .next { s with slot := .holds (1#s.cfg.W <<< (s.cfg.W - 1)) 1#s.cfg.W, response := some .ok } ∧
    ∀ t, exec (.construct s.cfg.W seed tapsIn) s = .next t → t.response = some .ok →
      (1#s.cfg.W <<< (s.cfg.W - 1)).toNat ≤ tapsIn.toNat

/-- R169 (derived in the spec): any nonzero value can be made the next output, by constructing with its predecessor as seed. -/
def Obligations.AnyValueCanComeNext : Prop :=
  ∀ (s : State) (v tapsIn : Word s.cfg.W), v ≠ 0 → tapsIn.getLsbD (s.cfg.W - 1) = true →
    exec (.construct s.cfg.W (lfsrUnstep v (normaliseTaps tapsIn)) tapsIn) s =
      .next { s with slot := .holds v (normaliseTaps tapsIn), response := some .ok }

/-! ## The output sequence -/

/-- R162 (derived in the spec): under an accepted mask the orbit of a nonzero seed is a pure cycle of distinct nonzero values, with
a period of at most `2^W - 1`. -/
def Obligations.OrbitIsAPureCycle : Prop :=
  ∀ (c : Config) (seed t : Word c.W), seed ≠ 0 → t.getLsbD 0 = true →
    ∃ P, P ≤ 2 ^ c.W - 1 ∧ IsPeriod t seed P ∧
      (∀ k, stepPow t (k + P) seed = stepPow t k seed) ∧
      (∀ k, stepPow t k seed ≠ 0) ∧
      ∀ j k, j < P → k < P → stepPow t j seed = stepPow t k seed → j = k

/-- Under a maximal tap value every nonzero seed has the period `2^W - 1` and every nonzero value is visited exactly once in a
period. What R163 says of maximal tap polynomials is proved here under the model's own reading of "maximal", that the seed 1 has
the period `2^W - 1` (assumption 7, DEDUCED; R163 gives no criterion but computing the period). -/
def Obligations.MaximalTapsVisitEveryNonzeroValue : Prop :=
  ∀ (c : Config) (tapsIn : Word c.W), tapsIn.getLsbD (c.W - 1) = true → MaximalTaps tapsIn →
    ∀ seed : Word c.W, seed ≠ 0 →
      IsPeriod (normaliseTaps tapsIn) seed (2 ^ c.W - 1) ∧
      ∀ v : Word c.W, v ≠ 0 →
        ∃! k, 1 ≤ k ∧ k ≤ 2 ^ c.W - 1 ∧ stepPow (normaliseTaps tapsIn) k seed = v

/-- R164, the rows of width up to 8: the source's tap values, their normalised masks, and their maximal periods. -/
def Obligations.SourceTapsUpToEightAreMaximal : Prop :=
  MaximalTaps 0x3#2 ∧ MaximalTaps 0x6#3 ∧ MaximalTaps 0xC#4 ∧ MaximalTaps 0x14#5 ∧ MaximalTaps 0x30#6 ∧
  MaximalTaps 0x60#7 ∧ MaximalTaps 0xB8#8 ∧
  normaliseTaps 0x3#2 = 0x3#2 ∧ normaliseTaps 0x6#3 = 0x3#3 ∧ normaliseTaps 0xC#4 = 0x3#4 ∧
  normaliseTaps 0x14#5 = 0x05#5 ∧ normaliseTaps 0x30#6 = 0x03#6 ∧ normaliseTaps 0x60#7 = 0x03#7 ∧
  normaliseTaps 0xB8#8 = 0x1D#8

/-- R164, the row of width 16. -/
def Obligations.SourceTapsSixteenAreMaximal : Prop :=
  MaximalTaps 0xFFF6#16 ∧ normaliseTaps 0xFFF6#16 = 0x6FFF#16

/-! ## The textual syntax -/

/-- R69: an operand numeral is one below `2^W`, and it stands for that number. -/
def Obligations.NumeralsBelowTwoToTheW : Prop :=
  ∀ (W n : Nat) (text : List Char), numeralValue text = some n →
    (n < 2 ^ W → ∃ v : Word W, operandOfText W text = some v ∧ v.toNat = n) ∧
    (2 ^ W ≤ n → operandOfText W text = none)

/-- A command of a block, written as a line in the syntax of R69 with binary operands, is read back as that command. -/
def Obligations.TextRoundTrip : Prop :=
  ∀ (c : Config) (i : Instr), i.wf c = true → parseLine c.W (renderCommand i) = some (some i)

/-! ## The bitwise operations -/

/-- R80, R81, R82, R83: the four bitwise operations bit by bit, the complement as a number, and where the step uses them: AND, OR
and NOT, and never the XOR of two words. -/
def Obligations.BitwiseOperations : Prop :=
  ∀ (W : Nat) (a b : Word W),
    (∀ i, i < W →
      (bitAnd a b).getLsbD i = (a.getLsbD i && b.getLsbD i) ∧ (bitOr a b).getLsbD i = (a.getLsbD i || b.getLsbD i) ∧
      (bitNot a).getLsbD i = !a.getLsbD i ∧ (bitXor a b).getLsbD i = (a.getLsbD i ^^ b.getLsbD i)) ∧
    bitAnd a 0 = 0 ∧ bitAnd a (BitVec.allOnes W) = a ∧
    (bitNot a).toNat = 2 ^ W - 1 - a.toNat ∧
    (0 < W → (bitNot 1#W).toNat = 2 ^ W - 2) ∧
    lfsrStep a b = rotateRight1 (bitOr (bitAnd a (bitNot 1#W)) (zextBit W (parity (bitAnd a b))))

/-! ## The result of a run -/

/-- R222: the result of a run from reset is the list of responses, one for each command in the order of the commands and none for a
reset cycle, and the state after the last command; a run has a result exactly when none of its steps stops. -/
def Obligations.RunResultIsResponsesAndLastState : Prop :=
  ∀ (c : Config) (ps : List (Pins c.W)),
    (∀ q, runCommands c ps = .next q →
      steps ps.length ((State.resetOf c).present ps) = .next q.last ∧
      q.responses.length = ps.countP (fun p => !p.rst) ∧ ∀ a ∈ q.responses, a.W = c.W) ∧
    (∀ t, steps ps.length ((State.resetOf c).present ps) = .next t → ∃ q, runCommands c ps = .next q) ∧
    (∀ r, steps ps.length ((State.resetOf c).present ps) = .refused r ↔ runCommands c ps = .refused r)

/-- R222, R49: a run that goes on for one more cycle, from any state, has the responses it had with that cycle's response after them,
and the state after that cycle; if that cycle stops, so does the run. -/
def Obligations.RunAppendsEachResponse : Prop :=
  ∀ (n : Nat) (s t : State) (rs : List Answer), runFrom n s = .next ⟨rs, t⟩ →
    (∀ u, step t = .next u → runFrom (n + 1) s = .next ⟨rs ++ u.answers, u⟩) ∧
    ∀ r, step t = .refused r → runFrom (n + 1) s = .refused r

/-- R104, R143, R222: an accepted `CONSTRUCT` and then `k` `NEXT`s, from any state, respond `Ok` and the `k` values
`Step^1(seed, t), …, Step^k(seed, t)`, in this order, and leave `Step^(k+1)(seed, t)`. -/
def Obligations.ResponsesOfASequence : Prop :=
  ∀ (s : State) (seed tapsIn : Word s.cfg.W) (k : Nat), accepted seed tapsIn = true →
    ∃ r, runFrom (k + 1) (s.present (Pins.construct seed tapsIn :: List.replicate k (Pins.next s.cfg.W))) =
      .next
        { responses := ⟨s.cfg.W, .ok⟩ ::
            (List.range k).map fun j => ⟨s.cfg.W, .value (stepPow (normaliseTaps tapsIn) (j + 1) seed)⟩
          last := { s with
            slot := .holds (stepPow (normaliseTaps tapsIn) (k + 1) seed) (normaliseTaps tapsIn)
            response := some r } }
end

