-- ==== Sys2Proof/Laws/Primitives.lean ====
section
/-! SUPPORT. The bits of the primitives, the fold of the parity, and CONSTRUCT's checks in the host's terms. -/

namespace Sys2Proof.Machine

@[simp] theorem bitAnd_eq {W : Nat} (a b : Word W) : bitAnd a b = a &&& b := rfl
@[simp] theorem bitOr_eq {W : Nat} (a b : Word W) : bitOr a b = a ||| b := rfl
@[simp] theorem bitNot_eq {W : Nat} (a : Word W) : bitNot a = ~~~a := rfl
@[simp] theorem bitXor_eq {W : Nat} (a b : Word W) : bitXor a b = a ^^^ b := rfl

@[simp] theorem getLsbD_bitReverse {W : Nat} (v : Word W) (i : Nat) :
    (bitReverse v).getLsbD i = (decide (i < W) && v.getLsbD (W - 1 - i)) := by
  unfold bitReverse
  rw [BitVec.getLsbD_ofFnLE]
  split <;> simp_all

@[simp] theorem getElem_bitReverse {W : Nat} (v : Word W) (i : Nat) (h : i < W) :
    (bitReverse v)[i] = v.getLsbD (W - 1 - i) := by
  rw [← BitVec.getLsbD_eq_getElem, getLsbD_bitReverse]
  simp only [h, decide_true, Bool.true_and]

@[simp] theorem getLsbD_zextBit (W : Nat) (b : Bool) (i : Nat) :
    (zextBit W b).getLsbD i = (decide (i < W) && (decide (i = 0) && b)) := by
  unfold zextBit
  rw [BitVec.getLsbD_setWidth]
  cases i <;> simp

@[simp] theorem getElem_zextBit (W : Nat) (b : Bool) (i : Nat) (h : i < W) :
    (zextBit W b)[i] = (decide (i = 0) && b) := by
  rw [← BitVec.getLsbD_eq_getElem, getLsbD_zextBit]
  simp only [h, decide_true, Bool.true_and]

/-- The bits of the constant 1 at width `W` (R88). -/
theorem getLsbD_oneWord (W i : Nat) : (1#W).getLsbD i = (decide (0 < W) && decide (i = 0)) := by
  simp [BitVec.getLsbD_one]

/-- The bits of a rotated word: bit 0 goes to the top, every other bit one place down (R87). -/
theorem getLsbD_rotateRight1 {W : Nat} (v : Word W) (i : Nat) :
    (rotateRight1 v).getLsbD i =
      (decide (i < W) && if i = W - 1 then v.getLsbD 0 else v.getLsbD (i + 1)) := by
  unfold rotateRight1
  rw [BitVec.getLsbD_or, BitVec.getLsbD_shiftLeft, BitVec.getLsbD_and, BitVec.getLsbD_ushiftRight, getLsbD_oneWord]
  by_cases h : i < W
  · by_cases htop : i = W - 1
    · subst htop
      have : 1 + (W - 1) = W := by omega
      simp [this, show 0 < W by omega]
    · have : i < W - 1 := by omega
      simp [h, htop, this, Nat.add_comm]
  · simp [h, BitVec.getLsbD_of_ge v (1 + i) (by omega)]

/-- The bits with bit 0 replaced (R122). -/
theorem getLsbD_masked {W : Nat} (s t : Word W) (i : Nat) :
    (masked s t).getLsbD i = (decide (i < W) && if i = 0 then feedbackBit s t else s.getLsbD i) := by
  unfold masked
  rw [bitOr_eq, bitAnd_eq, bitNot_eq, BitVec.getLsbD_or, BitVec.getLsbD_and, BitVec.getLsbD_not, getLsbD_oneWord, getLsbD_zextBit]
  by_cases h : i < W
  · by_cases h0 : i = 0 <;> simp [h, h0, show 0 < W by omega]
  · simp [h]

theorem popCountBelow_le {W : Nat} (v : Word W) (n : Nat) : popCountBelow v n ≤ n := by
  induction n with
  | zero => exact Nat.le_refl 0
  | succ n ih => rw [popCountBelow]; cases v.getLsbD n <;> simp <;> omega

/-- The count is in the range `0 .. W` (R85). -/
theorem popCount_le {W : Nat} (v : Word W) : popCount v ≤ W := popCountBelow_le v W

theorem xorBelow_congr {f g : Nat → Bool} {n : Nat} (h : ∀ i, i < n → f i = g i) : xorBelow f n = xorBelow g n := by
  induction n with
  | zero => rfl
  | succ n ih => rw [xorBelow, xorBelow, ih (fun i hi => h i (by omega)), h n (by omega)]

theorem xorBelow_xor (f g : Nat → Bool) (n : Nat) :
    xorBelow (fun i => f i ^^ g i) n = (xorBelow f n ^^ xorBelow g n) := by
  induction n with
  | zero => rfl
  | succ n ih =>
    rw [xorBelow, xorBelow, xorBelow, ih]
    cases xorBelow f n <;> cases xorBelow g n <;> cases f n <;> cases g n <;> rfl

theorem xorBelow_single (k n : Nat) (b : Bool) :
    xorBelow (fun i => decide (i = k) && b) n = (decide (k < n) && b) := by
  induction n with
  | zero => simp [xorBelow]
  | succ n ih =>
    rw [xorBelow, ih]
    rcases Nat.lt_trichotomy k n with h | h | h
    · simp [h, show k < n + 1 by omega, show ¬ n = k by omega]
    · subst h; simp
    · simp [show ¬ k < n by omega, show ¬ k < n + 1 by omega, show ¬ n = k by omega]

@[simp] theorem stepPow_zero {W : Nat} (t s : Word W) : stepPow t 0 s = s := rfl

theorem stepPow_succ {W : Nat} (t s : Word W) (k : Nat) : stepPow t (k + 1) s = lfsrStep (stepPow t k s) t := rfl

theorem stepPow_add {W : Nat} (t s : Word W) (a b : Nat) : stepPow t (a + b) s = stepPow t a (stepPow t b s) := by
  induction a with
  | zero => rw [Nat.zero_add, stepPow_zero]
  | succ a ih => rw [Nat.succ_add, stepPow_succ, ih, stepPow_succ]

/-- The checked bit of the normalised mask is the top bit the host supplied (R103). -/
theorem normaliseTaps_bit_zero {W : Nat} (tapsIn : Word W) : (normaliseTaps tapsIn).getLsbD 0 = tapsIn.getLsbD (W - 1) := by
  unfold normaliseTaps
  rw [getLsbD_bitReverse]
  by_cases h : 0 < W
  · simp [h]
  · simp [h, BitVec.getLsbD_of_ge tapsIn (W - 1) (by omega)]

theorem accepted_iff {W : Nat} (seed tapsIn : Word W) :
    accepted seed tapsIn = true ↔ seed ≠ 0 ∧ tapsIn.getLsbD (W - 1) = true := by
  simp [accepted]

/-- Everything the checks can answer (R112). -/
theorem checkOperands_eq {W : Nat} (seed tapsIn : Word W) :
    checkOperands seed tapsIn =
      if seed = 0 then .error .seedIsZero
      else if tapsIn.getLsbD (W - 1) then .ok (normaliseTaps tapsIn)
      else .error .tapsMustHaveMsbSet := by
  unfold checkOperands
  rw [normaliseTaps_bit_zero]

end Sys2Proof.Machine
end

