-- ==== Sys2Proof/Laws/State.lean ====
section
/-! SUPPORT. One lemma per field per update of the state, and what each update makes of a state written out. -/

namespace Sys2Proof.Machine

variable (s : State) (r : Response s.cfg.W) (kind : ErrorKind) (x t : Word s.cfg.W) (ps : List (Pins s.cfg.W))

@[simp] theorem respond_cfg : (s.respond r).cfg = s.cfg := rfl
@[simp] theorem respond_slot : (s.respond r).slot = s.slot := rfl
@[simp] theorem respond_port : (s.respond r).port = s.port := rfl
@[simp] theorem respond_response : (s.respond r).response = some r := rfl

@[simp] theorem respondErr_cfg : (s.respondErr kind).cfg = s.cfg := rfl
@[simp] theorem respondErr_slot : (s.respondErr kind).slot = s.slot := rfl
@[simp] theorem respondErr_port : (s.respondErr kind).port = s.port := rfl
@[simp] theorem respondErr_response : (s.respondErr kind).response = some (.err kind) := rfl

@[simp] theorem hold_cfg : (s.hold x t).cfg = s.cfg := rfl
@[simp] theorem hold_slot : (s.hold x t).slot = .holds x t := rfl
@[simp] theorem hold_port : (s.hold x t).port = s.port := rfl
@[simp] theorem hold_response : (s.hold x t).response = s.response := rfl

@[simp] theorem resetBlock_cfg : s.resetBlock.cfg = s.cfg := rfl
@[simp] theorem resetBlock_slot : s.resetBlock.slot = .empty := rfl
@[simp] theorem resetBlock_port : s.resetBlock.port = s.port := rfl
@[simp] theorem resetBlock_response : s.resetBlock.response = none := rfl

@[simp] theorem takeCycle_cfg : s.takeCycle.cfg = s.cfg := rfl
@[simp] theorem takeCycle_slot : s.takeCycle.slot = s.slot := rfl
@[simp] theorem takeCycle_port : s.takeCycle.port = s.port.tail := rfl
@[simp] theorem takeCycle_response : s.takeCycle.response = s.response := rfl

@[simp] theorem present_cfg : (s.present ps).cfg = s.cfg := rfl
@[simp] theorem present_slot : (s.present ps).slot = s.slot := rfl
@[simp] theorem present_port : (s.present ps).port = ps ++ s.port := rfl
@[simp] theorem present_response : (s.present ps).response = s.response := rfl

@[simp] theorem resetOf_cfg (c : Config) : (State.resetOf c).cfg = c := rfl
@[simp] theorem resetOf_slot (c : Config) : (State.resetOf c).slot = .empty := rfl
@[simp] theorem resetOf_port (c : Config) : (State.resetOf c).port = [] := rfl
@[simp] theorem resetOf_response (c : Config) : (State.resetOf c).response = none := rfl

@[simp] theorem slot_constructed_empty (W : Nat) : (Slot.empty : Slot W).constructed = false := rfl
@[simp] theorem slot_constructed_holds {W : Nat} (x t : Word W) : (Slot.holds x t).constructed = true := rfl
@[simp] theorem slot_state_empty (W : Nat) : (Slot.empty : Slot W).state? = none := rfl
@[simp] theorem slot_state_holds {W : Nat} (x t : Word W) : (Slot.holds x t).state? = some x := rfl
@[simp] theorem slot_taps_empty (W : Nat) : (Slot.empty : Slot W).taps? = none := rfl
@[simp] theorem slot_taps_holds {W : Nat} (x t : Word W) : (Slot.holds x t).taps? = some t := rfl

/-- The cycles presented to a state written out stand in front of its port. -/
theorem present_mk (c : Config) (sl : Slot c.W) (po ps : List (Pins c.W)) (r : Option (Response c.W)) :
    (State.mk c sl po r).present ps = State.mk c sl (ps ++ po) r := rfl

/-- Presenting two lists of cycles is presenting the second first, then the first in front of it. -/
theorem present_append_mk (c : Config) (sl : Slot c.W) (po ps qs : List (Pins c.W)) (r : Option (Response c.W)) :
    (State.mk c sl po r).present (ps ++ qs) = (State.mk c sl (qs ++ po) r).present ps := by
  simp [present_mk]

end Sys2Proof.Machine
end

