-- ==== Sys2Proof/Laws/Commands.lean ====
section
/-! SUPPORT. Everything a command can do, said once, on a state written out: the three outcomes of CONSTRUCT and the inversion of
`exec`. -/

namespace Sys2Proof.Machine

variable {c : Config} {sl : Slot c.W} {po : List (Pins c.W)} {r : Option (Response c.W)}

theorem constructWith_zeroSeed {seed tapsIn : Word c.W} (h : seed = 0) :
    constructWith ⟨c, sl, po, r⟩ seed tapsIn = ⟨c, sl, po, some (.err .seedIsZero)⟩ := by
  unfold constructWith
  rw [checkOperands_eq, if_pos h]
  rfl

theorem constructWith_noMsb {seed tapsIn : Word c.W} (h : seed ≠ 0) (hb : tapsIn.getLsbD (c.W - 1) = false) :
    constructWith ⟨c, sl, po, r⟩ seed tapsIn = ⟨c, sl, po, some (.err .tapsMustHaveMsbSet)⟩ := by
  unfold constructWith
  rw [checkOperands_eq, if_neg h]
  simp only [hb]
  rfl

theorem constructWith_accepted {seed tapsIn : Word c.W} (h : seed ≠ 0) (hb : tapsIn.getLsbD (c.W - 1) = true) :
    constructWith ⟨c, sl, po, r⟩ seed tapsIn =
      ⟨c, .holds (lfsrStep seed (normaliseTaps tapsIn)) (normaliseTaps tapsIn), po, some .ok⟩ := by
  unfold constructWith
  rw [checkOperands_eq, if_neg h]
  simp only [hb]
  rfl

/-- Operands of the block's own width are taken as they are. -/
theorem exec_construct_sameWidth (s : State) (seed tapsIn : Word s.cfg.W) :
    exec (.construct s.cfg.W seed tapsIn) s = .next (constructWith s seed tapsIn) := by
  simp [exec, execConstruct]

/-- The inversion of `exec`: if it answers a next state, one of these cases holds. -/
theorem exec_cases {i : Instr} {t : State} (h : exec i ⟨c, sl, po, r⟩ = .next t) :
    (i = .idle ∧ t = ⟨c, sl, po, some .none⟩) ∨
    (∃ seed tapsIn : Word c.W, i = .construct c.W seed tapsIn ∧
      ((seed = 0 ∧ t = ⟨c, sl, po, some (.err .seedIsZero)⟩) ∨
       (seed ≠ 0 ∧ tapsIn.getLsbD (c.W - 1) = false ∧ t = ⟨c, sl, po, some (.err .tapsMustHaveMsbSet)⟩) ∨
       (seed ≠ 0 ∧ tapsIn.getLsbD (c.W - 1) = true ∧
          t = ⟨c, .holds (lfsrStep seed (normaliseTaps tapsIn)) (normaliseTaps tapsIn), po, some .ok⟩))) ∨
    (i = .next ∧
      ((sl = .empty ∧ t = ⟨c, sl, po, some (.err .notConstructed)⟩) ∨
       ∃ x m, sl = .holds x m ∧ t = ⟨c, .holds (lfsrStep x m) m, po, some (.value x)⟩)) := by
  cases i with
  | idle => cases h; exact .inl ⟨rfl, rfl⟩
  | next =>
    cases sl with
    | empty => cases h; exact .inr (.inr ⟨rfl, .inl ⟨rfl, rfl⟩⟩)
    | holds x m => cases h; exact .inr (.inr ⟨rfl, .inr ⟨x, m, rfl, rfl⟩⟩)
  | construct V seed tapsIn =>
    by_cases e : V = c.W
    · subst e
      rw [show exec (.construct c.W seed tapsIn) ⟨c, sl, po, r⟩ = _ from
        exec_construct_sameWidth ⟨c, sl, po, r⟩ seed tapsIn] at h
      cases h
      refine .inr (.inl ⟨seed, tapsIn, rfl, ?_⟩)
      by_cases ha : seed = 0
      · exact .inl ⟨ha, constructWith_zeroSeed ha⟩
      · cases hb : tapsIn.getLsbD (c.W - 1)
        · exact .inr (.inl ⟨ha, rfl, constructWith_noMsb ha hb⟩)
        · exact .inr (.inr ⟨ha, rfl, constructWith_accepted ha hb⟩)
    · simp [exec, execConstruct, e] at h

end Sys2Proof.Machine
end

