-- ==== Sys2Proof/Laws/Decode.lean ====
section
/-! SUPPORT. The fields of a command word put together, and what the decoder reads from the pins. -/

namespace Sys2Proof

theorem make_op {W : Nat} (op : BitVec 2) (seed tapsIn : Word W) : (CmdWord.make op seed tapsIn).op = op := by
  apply BitVec.eq_of_getLsbD_eq
  intro i hi
  simp only [CmdWord.op, CmdWord.make, BitVec.getLsbD_extractLsb', BitVec.getLsbD_cast, BitVec.getLsbD_append]
  simp [hi, show ¬ 2 * W + i < W by omega, show ¬ 2 * W + i - W < W by omega, show 2 * W + i - W - W = i by omega]

theorem make_seed {W : Nat} (op : BitVec 2) (seed tapsIn : Word W) : (CmdWord.make op seed tapsIn).seed = seed := by
  apply BitVec.eq_of_getLsbD_eq
  intro i hi
  simp only [CmdWord.seed, CmdWord.make, BitVec.getLsbD_extractLsb', BitVec.getLsbD_cast, BitVec.getLsbD_append]
  simp [hi]

theorem make_tapsIn {W : Nat} (op : BitVec 2) (seed tapsIn : Word W) : (CmdWord.make op seed tapsIn).tapsIn = tapsIn := by
  apply BitVec.eq_of_getLsbD_eq
  intro i hi
  simp only [CmdWord.tapsIn, CmdWord.make, BitVec.getLsbD_extractLsb', BitVec.getLsbD_cast, BitVec.getLsbD_append]
  simp [hi]

/-- A command word is its three fields (R61). -/
theorem make_fields {W : Nat} (cmd : CmdWord W) : CmdWord.make cmd.op cmd.seed cmd.tapsIn = cmd := by
  apply BitVec.eq_of_getLsbD_eq
  intro i hi
  simp only [CmdWord.op, CmdWord.seed, CmdWord.tapsIn, CmdWord.make, BitVec.getLsbD_extractLsb', BitVec.getLsbD_cast,
    BitVec.getLsbD_append]
  by_cases hlow : i < W
  · simp [hlow]
  · by_cases hmid : i - W < W
    · simp [hlow, hmid]
      congr 1
      omega
    · simp [hlow, hmid, show i - W - W < 2 by omega]
      congr 1
      omega

/-- The decoder on the word of three pins (R62). -/
theorem decode_make {W : Nat} (op : BitVec 2) (seed tapsIn : Word W) :
    decode W (CmdWord.make op seed tapsIn) =
      if op = 0b00#2 then .ok .idle
      else if op = 0b01#2 then .ok (.construct W seed tapsIn)
      else if op = 0b10#2 then .ok .next
      else .error .reservedOpcode := by
  unfold decode
  rw [make_op, make_seed, make_tapsIn]

/-- The pins of a word carry that word. -/
theorem Machine.word_ofWord {W : Nat} (cmd : CmdWord W) : (Machine.Pins.ofWord cmd).word = cmd := make_fields cmd

end Sys2Proof
end

