-- ==== Sys2Proof/Laws/PerInstr.lean ====
section
/-! SUPPORT. Facts about every command as syntax, one lemma per constructor. -/

/-- A command has a word on a block's ports exactly when it is a command of that block (R45, R61). -/
def Sys2Proof.Laws.HasWord.Statement (i : Sys2Proof.Instr) : Prop :=
  ∀ c : Sys2Proof.Config, i.wf c = true ↔ (Sys2Proof.encode c.W i).isSome = true

theorem Sys2Proof.Laws.HasWord.idle : Sys2Proof.Laws.HasWord.Statement .idle := fun _ => ⟨fun _ => rfl, fun _ => rfl⟩

theorem Sys2Proof.Laws.HasWord.construct (W : Nat) (seed tapsIn : Sys2Proof.Word W) :
    Sys2Proof.Laws.HasWord.Statement (.construct W seed tapsIn) := by
  intro c
  by_cases h : W = c.W <;> simp [Sys2Proof.Instr.wf, Sys2Proof.encode, h]

theorem Sys2Proof.Laws.HasWord.next : Sys2Proof.Laws.HasWord.Statement .next := fun _ => ⟨fun _ => rfl, fun _ => rfl⟩
end

