-- ==== Sys2Proof/Laws/Step.lean ====
section
/-! SUPPORT. Everything a step can do, said once, on a state written out, and how runs compose. -/

namespace Sys2Proof.Machine

variable {c : Config} {sl : Slot c.W} {po : List (Pins c.W)} {r : Option (Response c.W)} {p : Pins c.W}

theorem bitVec2_cases (op : BitVec 2) : op = 0b00#2 ∨ op = 0b01#2 ∨ op = 0b10#2 ∨ op = 0b11#2 := by
  revert op
  decide

theorem step_cons :
    step ⟨c, sl, p :: po, r⟩ =
      if p.rst then .next ⟨c, .empty, po, none⟩
      else
        match decode c.W p.word with
        | .ok i => exec i ⟨c, sl, po, r⟩
        | .error .reservedOpcode => .refused .reservedOpcode := rfl

theorem step_reset (h : p.rst = true) : step ⟨c, sl, p :: po, r⟩ = .next ⟨c, .empty, po, none⟩ := by
  rw [step_cons, if_pos h]

theorem step_idle (h : p.rst = false) (ho : p.op = 0b00#2) :
    step ⟨c, sl, p :: po, r⟩ = .next ⟨c, sl, po, some .none⟩ := by
  rw [step_cons, Pins.word, decode_make]
  simp [h, ho]
  rfl

theorem step_construct (h : p.rst = false) (ho : p.op = 0b01#2) :
    step ⟨c, sl, p :: po, r⟩ = .next (constructWith ⟨c, sl, po, r⟩ p.seed p.tapsIn) := by
  rw [step_cons, Pins.word, decode_make]
  simp [h, ho]
  exact exec_construct_sameWidth ⟨c, sl, po, r⟩ p.seed p.tapsIn

theorem step_next (h : p.rst = false) (ho : p.op = 0b10#2) :
    step ⟨c, sl, p :: po, r⟩ = exec .next ⟨c, sl, po, r⟩ := by
  rw [step_cons, Pins.word, decode_make]
  simp [h, ho]

theorem step_reserved (h : p.rst = false) (ho : p.op = 0b11#2) :
    step ⟨c, sl, p :: po, r⟩ = .refused .reservedOpcode := by
  rw [step_cons, Pins.word, decode_make]
  simp [h, ho]

/-- The inversion of `step`: a next state comes from a reset cycle or from a command. -/
theorem step_cases {s t : State} (h : step s = .next t) :
    t = s.takeCycle.resetBlock ∨ ∃ i, exec i s.takeCycle = .next t := by
  unfold step at h
  split at h
  · cases h
    exact .inl rfl
  · split at h
    · exact .inr ⟨_, h⟩
    · cases h

theorem steps_one (s : State) : steps 1 s = step s := by
  unfold steps
  cases step s <;> rfl

theorem steps_succ {s t : State} {n : Nat} (h : step s = .next t) : steps (n + 1) s = steps n t := by
  rw [steps, h]

theorem steps_add {a b : Nat} {s t : State} (h : steps a s = .next t) : steps (a + b) s = steps b t := by
  induction a generalizing s with
  | zero => cases h; rw [Nat.zero_add]
  | succ a ih =>
    rw [Nat.succ_add, steps]
    rw [steps] at h
    split at h <;> simp_all

@[simp] theorem answers_none {c : Config} (sl : Slot c.W) (po : List (Pins c.W)) :
    (State.mk c sl po none).answers = [] := rfl

@[simp] theorem answers_some {c : Config} (sl : Slot c.W) (po : List (Pins c.W)) (r : Response c.W) :
    (State.mk c sl po (some r)).answers = [⟨c.W, r⟩] := rfl

theorem prependAnswers_append (a b : List Answer) (o : Host.Outcome RunResult Fault Refusal) :
    prependAnswers (a ++ b) o = prependAnswers a (prependAnswers b o) := by
  cases o <;> simp [prependAnswers]

theorem runFrom_succ {s t : State} {n : Nat} (h : step s = .next t) :
    runFrom (n + 1) s = prependAnswers t.answers (runFrom n t) := by
  rw [runFrom, h]

theorem runFrom_refused {s : State} {n : Nat} {r : Refusal} (h : step s = .refused r) : runFrom (n + 1) s = .refused r := by
  rw [runFrom, h]

theorem run_succ (M : Host.Core) (n : Nat) (s : M.State) :
    M.run (n + 1) s =
      match M.step s with
      | .next t => M.run n t
      | .fault r => .fault r
      | .refused r => .refused r := rfl

/-- The model's runs are the host's. -/
theorem steps_eq_run (n : Nat) (s : State) : steps n s = Host.Core.run Sys2Proof.core n s := by
  induction n generalizing s with
  | zero => rfl
  | succ n ih =>
    refine Eq.trans ?_ (run_succ Sys2Proof.core n s).symm
    cases h : step s with
    | next t =>
      rw [steps_succ h, show Sys2Proof.core.step s = .next t from h]
      exact ih t
    | fault r => exact nomatch r
    | refused r =>
      rw [show Sys2Proof.core.step s = .refused r from h, steps, h]
      rfl

/-- A deferred block that owes nothing stands for itself. -/
theorem settle_not_owed (s : State) : (DeferredState.mk s false).settle = s := by
  obtain ⟨c, sl, po, r⟩ := s
  cases sl <;> rfl

end Sys2Proof.Machine
end

