-- ==== Sys2Proof/Tests/Slice0.lean ====
section
/-! SUPPORT. Tests with expected results from the spec's own text and vectors (95_test_vectors.md, named at each test), and a
witness for the hypotheses of every statement that has any. -/

namespace Sys2Proof.Tests

open Machine

def w4 : Config := ⟨4, by decide⟩
def w8 : Config := ⟨8, by decide⟩

/-- A block holding an instance, nothing presented. -/
def held (c : Config) (x t : Word c.W) : State := ⟨c, .holds x t, [], none⟩

/-- A block holding no instance, nothing presented. -/
def bare (c : Config) : State := State.resetOf c

/-- What a test looks at: `state` and `taps` where they exist, and the response as status code and value. -/
def shown : Host.Outcome State Fault Refusal → Option (Option Nat × Option Nat × Option (Nat × Option Nat))
  | .next s => some (s.slot.state?.map (·.toNat), s.slot.taps?.map (·.toNat),
      s.response.map fun r => (r.status.toNat, r.value?.map (·.toNat)))
  | .fault _ => none
  | .refused _ => none

/-- What a test looks at in the result of a run: status code and value of every response, and `state` at the end. -/
def ranWith : Host.Outcome RunResult Fault Refusal → Option (List (Nat × Option Nat) × Option Nat)
  | .next q => some (q.responses.map fun a => (a.response.status.toNat, a.response.value?.map (·.toNat)),
      q.last.slot.state?.map (·.toNat))
  | .fault _ => none
  | .refused _ => none

def refusal : Host.Outcome State Fault Refusal → Option Refusal
  | .refused r => some r
  | .next _ => none
  | .fault _ => none

/-! ## WellFormed: the one check, with a term it refuses -/

theorem smoke_wf_refuses_other_width : (Instr.construct 5 1 16).wf w4 = false := by decide
theorem smoke_wf_accepts_own_width : (Instr.construct 4 1 13).wf w4 = true := by decide
/-- R187, U8. -/
theorem smoke_config_refuses_width_one : Config.ofWidth? 1 = none := by decide

/-! ## Encoding: the words of R71 and of section 7, written out bit by bit from R61 -/

theorem test_decode_idle : decode 4 0b00_0000_0000#10 = .ok .idle := by decide
theorem test_decode_construct : decode 4 0b01_0001_1101#10 = .ok (.construct 4 0b0001#4 0b1101#4) := by decide
theorem test_decode_next : decode 4 0b10_0000_0000#10 = .ok .next := by decide
theorem test_decode_reserved : decode 4 0b11_0000_0000#10 = .error .reservedOpcode := by decide
/-- R67. -/
theorem test_decode_next_ignores_operands : decode 4 0b10_1010_0111#10 = .ok .next := by decide
/-- Section 7, `W = 16`. -/
theorem test_decode_construct16 : decode 16 0x1BEEFFFF6#34 = .ok (.construct 16 0xBEEF#16 0xFFF6#16) := by decide
theorem test_encode_construct : encode 4 (.construct 4 1 13) = some 0x11D#10 := by decide
theorem test_encode_next : encode 4 .next = some 0x200#10 := by decide
theorem test_table_word : decodeTableWord 16 0x11D = some (.construct 4 1 13) := by decide
theorem test_table_word_too_wide : decodeTableWord 16 0x511D = none := by decide

/-! ## Primitives and Step: sections 5 and 6 -/

/-- Reversal is across exactly 5 bits, not inside a byte. -/
theorem test_bitReverse5 : bitReverse 0x14#5 = 0x05#5 := by decide
theorem test_bitReverse16 : bitReverse 0x1234#16 = 0x2C48#16 := by decide
/-- The examples of R80, R81 and R82. -/
theorem test_bitwise : bitAnd 0xC4#8 0x1D#8 = 0x04#8 ∧ bitOr 0xC4#8 0x01#8 = 0xC5#8 ∧ bitNot 1#4 = 0b1110#4 := by decide
/-- R128 at the trace of section 2: the XOR of two steps is the step of the XOR (1100 and 1110 come after 1000 and 1100). -/
theorem test_bitXor : bitXor 0b1100#4 0b1110#4 = lfsrStep (bitXor 0b1000#4 0b1100#4) 0b1011#4 := by decide
theorem test_popCount : popCount 0x6FFF#16 = 14 := by decide
theorem test_parity_odd : parity 0x1C#8 = true := by decide
theorem test_rotateRight1 : rotateRight1 0xA5#8 = 0xD2#8 := by decide
theorem test_step_odd_parity : lfsrStep 0xFE#8 0x1D#8 = 0xFF#8 := by decide
theorem test_step_smallest_width : lfsrStep 0b11#2 0b11#2 = 0b01#2 := by decide
theorem test_unstep : lfsrUnstep 0x7F#8 0x1D#8 = 0xFF#8 := by decide
/-- Section 1: `W = 8`, `taps_in = 0xB8`, NEXT number 5. -/
theorem test_stepPow : stepPow (bitReverse 0xB8#8) 5 0x01#8 = 0x88#8 := by decide

/-! ## Commands: sections 7 to 9 -/

theorem test_construct_accepted :
    shown (exec (.construct 8 0xA5 0xB8) (bare w8)) = some (some 0x52, some 0x1D, some (0, none)) := by decide
/-- Both checks would fail: the seed is reported, and the instance survives (R105, R106). -/
theorem test_construct_both_checks :
    shown (exec (.construct 8 0x00 0x7F) (held w8 0x20 0x1D)) = some (some 0x20, some 0x1D, some (1, none)) := by decide
theorem test_construct_no_msb :
    shown (exec (.construct 8 0x01 0x7F) (bare w8)) = some (none, none, some (2, none)) := by decide
theorem test_next_value :
    shown (exec .next (held w8 0x20 0x1D)) = some (some 0x10, some 0x1D, some (0, some 0x20)) := by decide
theorem test_next_not_constructed : shown (exec .next (bare w8)) = some (none, none, some (3, none)) := by decide
theorem test_idle : shown (exec .idle (held w8 0x20 0x1D)) = some (some 0x20, some 0x1D, some (0, none)) := by decide

/-! ## Steps -/

/-- Section 9: NEXT with operand bits set, the word `0x2A5B8`. -/
theorem test_step_next_word :
    shown (step ((held w8 0x20 0x1D).withFetchWord 24 0x2A5B8)) = some (some 0x10, some 0x1D, some (0, some 0x20)) := by decide
/-- Section 9: reset wins over any command (R219). -/
theorem test_step_reset :
    shown (step ((held w8 0x20 0x1D).present [⟨true, 0b10, 0, 0⟩])) = some (none, none, none) := by decide
theorem test_step_reserved : refusal (step ((bare w8).withFetchWord 24 0x3FFFF)) = some .reservedOpcode := by decide
theorem test_step_nothing_presented : shown (step (bare w4)) = some (none, none, some (0, none)) := by decide
theorem test_step_first_after_reset :
    shown (step (State.reset.withFetchWord 16 0x11D)) = some (some 0b1000, some 0b1011, some (0, none)) := by decide
/-- The start of P1, with a reset cycle before it: the responses `Ok`, `Value(0b1000)`, `Value(0b1100)` and the state after them
(R222). -/
theorem test_run_result :
    ranWith (runCommands w4 [⟨true, 0, 0, 0⟩, Pins.construct (W := 4) 1 0b1101, Pins.next 4, Pins.next 4]) =
      some ([(0, none), (0, some 0b1000), (0, some 0b1100)], some 0b1110) := by decide
/-- Two blocks (P5): block 1 is not touched by block 0's cycle. -/
theorem test_two_blocks :
    (runSchedule [0] [.next (held w8 0x40 0x1D), .next (held w8 0x69 0x01)]).map shown =
      [some (some 0x40, some 0x1D, some (0, none)), some (some 0x69, some 0x01, none)] := by decide
/-- R35: a deferred NEXT returns the same value and owes the step. -/
theorem test_deferred_next :
    (deferredNext (held w8 0x20 0x1D) false).base.slot = .holds 0x20 0x1D ∧
      (deferredNext (held w8 0x20 0x1D) true).base.response = some (.value 0x10) := by decide

/-! ## Text: the syntax of R69 -/

theorem test_parse_construct :
    parseLine 4 "CONSTRUCT 1, 0xD;".toList = some (some (.construct 4 1 13)) := by decide
theorem test_parse_underscore : operandOfText 8 "0b1011_1000".toList = some 0xB8#8 := by decide
/-- Leading zeros, any numeral as `<n>`, and a further comment but no other text after it: the model's choices of log entry 5. -/
theorem test_numeral_choices :
    operandOfText 4 "007".toList = some 7#4 ∧ (headWidth "; W = 0x4\n".toList).map (·.W) = some 4 ∧
      (headWidth "; W = 4 ; note\n".toList).map (·.W) = some 4 ∧ headWidth "; W = 4 note\n".toList = none := by decide
theorem test_parse_too_large : parseLine 4 "CONSTRUCT 16, 0b1101".toList = none := by decide
theorem test_assemble :
    (assemble 4 "; W = 4\nCONSTRUCT 1, 0b1101\nNEXT\n".toList).map (·.map Pins.word) = some [0x11D#10, 0x200#10] := by decide

theorem test_head_width : (headWidth "; W = 4\nNEXT\n".toList).map (·.W) = some 4 ∧ headWidth "; W = 1\n".toList = none := by
  decide
theorem test_assembleProgram : (assembleProgram "; W = 3\nNEXT\n".toList).map (fun q => q.2.map (·.word.toNat)) = some [0x80] := by
  decide

/-! ## Witnesses: for every statement with hypotheses, states and operands that meet them together -/

/-- `ResetCyclesEndTheInstance`: both clauses, with the reserved code on `op` during reset. -/
theorem witness_ResetCyclesEndTheInstance :
    ∃ ps : List (Pins (held w4 8 11).cfg.W), ps ≠ [] ∧ (∀ p ∈ ps, p.rst = true) ∧
      ∃ p : Pins (held w4 8 11).cfg.W, p.rst = false ∧ decode (held w4 8 11).cfg.W p.word = .ok .next :=
  ⟨[⟨true, 0b11, 0, 0⟩, ⟨true, 0b10, 0, 0⟩], by decide, by decide, Pins.next 4, by decide, by decide⟩

theorem witness_StepRunsThePresentedCommand :
    ∃ p : Pins (bare w4).cfg.W, p.rst = false ∧ decode (bare w4).cfg.W p.word = .ok (.construct 4 1 13) :=
  ⟨Pins.construct (W := 4) 1 13, by decide, by decide⟩

theorem witness_NothingPresentedIsIdle : (bare w4).port = [] := rfl

theorem witness_ReservedCodeIsRefused : ∃ p : Pins (bare w4).cfg.W, p.rst = false ∧ p.op = 0b11#2 :=
  ⟨⟨false, 0b11, 15, 15⟩, by decide, by decide⟩

/-- Both sides of the equivalence at once. -/
theorem witness_OnlyTheReservedCodeStops :
    refusal (step ((bare w4).present [⟨false, 0b11, 0, 0⟩])) = some .reservedOpcode ∧
      ((bare w4).present [⟨false, 0b11, 0, 0⟩]).pins.op = 0b11#2 := by decide

/-- Both clauses of `TableWordRunsAfterReset`, at the ends of the range of words. -/
theorem witness_TableWordRunsAfterReset :
    (0x000 < 2 ^ (2 + 2 * Config.table.W) ∧ decodeTableWord 16 0x000 = some .idle) ∧
      (0x3FF < 2 ^ (2 + 2 * Config.table.W) ∧ decodeTableWord 16 0x3FF = none) := by decide

theorem witness_DecodeOfEncode : (Instr.construct 4 15 15).wf w4 = true ∧ Instr.next.wf w4 = true ∧ Instr.idle.wf w4 = true := by
  decide

theorem witness_EncodeOfDecode :
    decode w4.W 0x1FF#10 = .ok (.construct 4 15 15) ∧ decode w4.W 0x2FF#10 = .ok .next := by decide

/-- Both clauses of `ConstructRejectsZeroSeed`: the seed 0 and the least other seed. -/
theorem witness_ConstructRejectsZeroSeed : (0#4 : Word (bare w4).cfg.W) = 0 ∧ (1#4 : Word (bare w4).cfg.W) ≠ 0 := by decide

/-- Both clauses of `ConstructRejectsTapsWithoutMsb`, where they meet: `2^(W-1) - 1` and `2^(W-1)`. -/
theorem witness_ConstructRejectsTapsWithoutMsb :
    (1#4 : Word (bare w4).cfg.W) ≠ 0 ∧ (7#4).getLsbD 3 = false ∧ 2 ^ ((bare w4).cfg.W - 1) ≤ (8#4).toNat := by decide

theorem witness_ConstructStoresTheSteppedSeed :
    (15#4 : Word (held w4 8 11).cfg.W) ≠ 0 ∧ (8#4).getLsbD ((held w4 8 11).cfg.W - 1) = true := by decide

theorem witness_ConstructOfAnotherWidthIsRefused : (5 : Nat) ≠ (bare w4).cfg.W := by decide

theorem witness_NextReturnsThenSteps : (held w4 8 11).slot = .holds 8 11 := rfl

theorem witness_NextWithoutInstance : (bare w4).slot = .empty := rfl

/-- Every clause of `CommandFrame` has a command that completes. -/
theorem witness_CommandFrame :
    (∃ t, exec .idle (held w4 8 11) = .next t) ∧ (∃ t, exec .next (held w4 8 11) = .next t) ∧
      (∃ t, exec (.construct 4 0 8) (held w4 8 11) = .next t) ∧ accepted 0#4 8#4 = false :=
  ⟨⟨_, rfl⟩, ⟨_, rfl⟩, ⟨_, rfl⟩, by decide⟩

theorem witness_FailingCommandChangesNothing :
    ∃ t, exec (.construct 4 1 7) (held w4 8 11) = .next t ∧ t.response = some (.err .tapsMustHaveMsbSet) :=
  ⟨_, rfl, by decide⟩

theorem witness_NoErrorAfterConstruction :
    (held w4 8 11).constructed = true ∧
      ∃ t, exec (.construct 4 0 8) (held w4 8 11) = .next t ∧ t.response = some (.err .seedIsZero) :=
  ⟨by decide, _, rfl, by decide⟩

/-- The flag is set by an accepted CONSTRUCT from 0, and the reset clause and the NEXT clause have their cases. -/
theorem witness_ConstructedFlag :
    (∃ t, exec (.construct 4 1 8) (bare w4) = .next t ∧ t.constructed = true) ∧
      (∃ t, step ((held w4 8 11).present [⟨true, 0, 0, 0⟩]) = .next t ∧ t.constructed = false) ∧
      (∃ t, exec .next (bare w4) = .next t ∧ t.response = some (.err .notConstructed)) :=
  ⟨⟨_, rfl, by decide⟩, ⟨_, rfl, by decide⟩, ⟨_, rfl, by decide⟩⟩

theorem witness_Idempotency :
    (Pins.construct (W := 4) 1 8).rst = false ∧ (Pins.construct (W := 4) 1 8).op = 0b01#2 ∧ (Pins.idle 4).op = 0b00#2 ∧
      (held w4 8 11).slot = .holds 8 11 := ⟨rfl, rfl, rfl, rfl⟩

theorem witness_InvariantsAreKept :
    (held w4 8 11).Inv ∧ ∃ t, step ((held w4 8 11).present [Pins.next 4]) = .next t ∧ t.slot.state? ≠ none :=
  ⟨⟨(by decide : (8#4 : BitVec 4) ≠ 0), (by decide : (11#4).getLsbD 0 = true)⟩, _, rfl, by decide⟩

/-- A run from reset whose last response is a value. -/
theorem witness_NextNeverReturnsZero :
    shown (steps 2 ((State.resetOf w4).present [Pins.construct (W := 4) 1 8, Pins.next 4])) =
      some (some 4, some 1, some (0, some 8)) := by decide

theorem witness_WidthIsFixed : ∃ t, step (held w4 8 11) = .next t := ⟨_, rfl⟩

theorem witness_ConstructForgetsTheOldInstance : accepted 1#4 8#4 = true := by decide

theorem witness_IdleCyclesDoNotMatter :
    ∀ q ∈ ([Pins.idle 4, ⟨false, 0b00, 15, 15⟩] : List (Pins 4)), q.rst = false ∧ q.op = 0b00#2 := by decide

theorem witness_BeforeTheFirstConstruct :
    ∀ p ∈ ([Pins.next 4, Pins.construct 0 8, Pins.construct 1 7, Pins.idle 4, ⟨true, 0b11, 0, 0⟩] : List (Pins 4)),
      p.allowed = true ∧ p.constructs = false := by decide

theorem witness_OutputSequence :
    accepted 1#4 13#4 = true ∧
      (∀ p ∈ ([Pins.next 4, Pins.construct 0 8, Pins.idle 4, Pins.construct 1 7] : List (Pins 4)), p.keepsInstance = true) := by
  decide

/-- `DeferredIsIndistinguishable`: a deferred block that owes a step and goes on, and one that stops. -/
theorem witness_DeferredIsIndistinguishable :
    (∃ e, deferredSteps 1 ⟨(held w4 8 11).present [Pins.next 4], true⟩ = .next e) ∧
      (∃ r, deferredSteps 1 ⟨(held w4 8 11).present [⟨false, 0b11, 0, 0⟩], true⟩ = .refused r) ∧
      (∃ t, steps 1 (DeferredState.mk ((held w4 8 11).present [Pins.next 4]) true).settle = .next t) :=
  ⟨⟨_, rfl⟩, ⟨_, rfl⟩, ⟨_, rfl⟩⟩

theorem witness_TappedBitsInTheHostsTerms : (8#4).getLsbD (w4.W - 1) = true := by decide

/-- Both clauses of `StepIsABijection`. -/
theorem witness_StepIsABijection : (1#4).getLsbD 0 = true ∧ (2#4).getLsbD 0 = false := by decide

/-- The bits 1 0 0 1 … of the value 9 under the mask 1, which repeat with period 4, meet both conditions on `u`. -/
theorem witness_StatesAreASlidingWindow :
    ∃ u : Nat → Bool, (∀ i, i < w4.W → u i = (9#4).getLsbD i) ∧
      ∀ n, u (n + w4.W) = xorBelow (fun i => (1#4).getLsbD i && u (n + i)) w4.W := by
  refine ⟨fun n => (9#4).getLsbD (n % 4), by decide, fun n => ?_⟩
  show (9#4).getLsbD ((n + 4) % 4) = xorBelow (fun i => (1#4).getLsbD i && (9#4).getLsbD ((n + i) % 4)) 4
  simp [xorBelow]

/-- Every clause: an accepted pair, and at `W = 4` the least accepted taps, 8, where 7 is refused. -/
theorem witness_PostConstructionState :
    accepted (15#4 : Word (bare w4).cfg.W) 13#4 = true ∧ (8#4).getLsbD ((bare w4).cfg.W - 1) = true ∧
      (∃ t, exec (.construct 4 1 8) (bare w4) = .next t ∧ t.response = some .ok) ∧
      ∃ t, exec (.construct 4 1 7) (bare w4) = .next t ∧ t.response ≠ some .ok :=
  ⟨by decide, by decide, ⟨_, rfl, by decide⟩, ⟨_, rfl, by decide⟩⟩

theorem witness_AnyValueCanComeNext :
    (1#4 : Word (bare w4).cfg.W) ≠ 0 ∧ (8#4).getLsbD ((bare w4).cfg.W - 1) = true := by decide

theorem witness_OrbitIsAPureCycle : (15#4 : Word w4.W) ≠ 0 ∧ (11#4).getLsbD 0 = true := by decide

/-- `W = 2`, `taps_in = 0b11`, the first row of R164. -/
theorem witness_MaximalTapsVisitEveryNonzeroValue :
    (3#2).getLsbD ((⟨2, by decide⟩ : Config).W - 1) = true ∧ MaximalTaps 3#2 ∧ (2#2 : Word 2) ≠ 0 := by
  refine ⟨by decide, ⟨by decide, by decide, fun k h1 h2 => ?_⟩, by decide⟩
  have : k = 1 ∨ k = 2 := by
    have : (2 ^ 2 - 1 : Nat) = 3 := rfl
    omega
  rcases this with rfl | rfl <;> decide

/-- Both clauses of `NumeralsBelowTwoToTheW`, where they meet: 15 and 16 at `W = 4`. -/
theorem witness_NumeralsBelowTwoToTheW :
    (numeralValue "0xF".toList = some 15 ∧ 15 < 2 ^ 4) ∧ (numeralValue "16".toList = some 16 ∧ 2 ^ 4 ≤ 16) := by decide

theorem witness_TextRoundTrip : (Instr.construct 4 9 8).wf w4 = true := by decide

/-- `BitwiseOperations`, at the least and the greatest bit of a width. -/
theorem witness_BitwiseOperations : (0 : Nat) < w4.W ∧ 3 < w4.W := by decide

/-- Runs of each kind: one with a result and one that stops. -/
theorem witness_RunResultIsResponsesAndLastState :
    (∃ q, runCommands w4 [Pins.next 4] = .next q) ∧
      (∃ t, steps 1 ((State.resetOf w4).present [Pins.next 4]) = .next t) ∧
      steps 1 ((State.resetOf w4).present [⟨false, 0b11, 0, 0⟩]) = .refused .reservedOpcode :=
  ⟨⟨_, rfl⟩, ⟨_, rfl⟩, rfl⟩

/-- A run that goes on, and one that stops in its second cycle. -/
theorem witness_RunAppendsEachResponse :
    (∃ q u, runFrom 1 ((held w4 8 11).present [Pins.next 4]) = .next q ∧ step q.last = .next u) ∧
      ∃ q, runFrom 1 ((held w4 8 11).present [Pins.next 4, ⟨false, 0b11, 0, 0⟩]) = .next q ∧
        step q.last = .refused .reservedOpcode :=
  ⟨⟨_, _, rfl, rfl⟩, ⟨_, rfl, rfl⟩⟩

theorem witness_ResponsesOfASequence : accepted 1#4 13#4 = true := by decide

end Sys2Proof.Tests
end

section
/-! PROOFS. The scope of the block (spec 00_scope.md): a step runs the command that the host presents, and keeps the width. -/

namespace Sys2Proof.Machine

/-- A cycle without reset whose word decodes runs that command on the state in which the cycle is taken (R14, R49). -/
theorem step_command {c : Config} {sl : Slot c.W} {po : List (Pins c.W)} {r : Option (Response c.W)} {p : Pins c.W}
    {i : Instr} (hrst : p.rst = false) (hdecode : decode c.W p.word = .ok i) :
    step ⟨c, sl, p :: po, r⟩ = exec i ⟨c, sl, po, r⟩ := by
  rw [step_cons]
  simp only [hrst, hdecode, Bool.false_eq_true, if_false]

/-- No outcome of a command touches the elaboration parameter (R8). -/
theorem exec_cfg {i : Instr} {s t : State} (h : exec i s = .next t) : t.cfg = s.cfg := by
  obtain ⟨c, sl, po, r⟩ := s
  obtain ⟨-, rfl⟩ | ⟨seed, tapsIn, -, hconstruct⟩ | ⟨-, hnext⟩ := exec_cases h
  · rfl
  · obtain ⟨-, rfl⟩ | ⟨-, -, rfl⟩ | ⟨-, -, rfl⟩ := hconstruct <;> rfl
  · obtain ⟨-, rfl⟩ | ⟨x, m, -, rfl⟩ := hnext <;> rfl

/-- A cycle, a reset cycle among them, keeps the elaboration parameter (R8). -/
theorem step_cfg {s t : State} (h : step s = .next t) : t.cfg = s.cfg := by
  obtain rfl | ⟨i, hi⟩ := step_cases h
  · rw [resetBlock_cfg, takeCycle_cfg]
  · rw [exec_cfg hi, takeCycle_cfg]

/-- Settles O29: every outcome of `step` keeps `cfg`, and a `Config` carries the bound on its width. -/
theorem widthIsFixed : Obligations.WidthIsFixed :=
  fun s _ h => ⟨step_cfg h, s.cfg.two_le⟩

/-- Settles O3, by `step_command` on the one cycle presented. -/
theorem stepRunsThePresentedCommand : Obligations.StepRunsThePresentedCommand :=
  fun _ _ _ hrst hdecode => step_command hrst hdecode

end Sys2Proof.Machine
end

section
/-! PROOFS. The state of the block (spec 10_state.md): its invariants, the frame of every command, the flag `constructed`, the
response that is no state, and the deferred implementation. -/

namespace Sys2Proof.Machine

/-! ## The step never makes a zero -/

/-- A count is odd exactly when the bits it counts fold to 1 (R86). -/
theorem popCountBelow_odd {W : Nat} (v : Word W) (n : Nat) : (popCountBelow v n % 2 == 1) = xorBelow v.getLsbD n := by
  induction n with
  | zero => rfl
  | succ n ih =>
    rw [popCountBelow, xorBelow, ← ih]
    rcases Nat.mod_two_eq_zero_or_one (popCountBelow v n) with h | h <;> cases v.getLsbD n <;> simp [Nat.add_mod, h]

theorem parity_eq_xorBelow {W : Nat} (v : Word W) : parity v = xorBelow v.getLsbD W := popCountBelow_odd v W

/-- The feedback bit is the fold of the tapped bits (R121). -/
theorem feedbackBit_eq_xorBelow {W : Nat} (s t : Word W) :
    feedbackBit s t = xorBelow (fun i => s.getLsbD i && t.getLsbD i) W := by
  rw [feedbackBit, parity_eq_xorBelow, bitAnd_eq]
  exact xorBelow_congr fun i _ => BitVec.getLsbD_and

/-- The bits of the next state: the feedback bit on top, every other bit one place down (R120, R124). -/
theorem getLsbD_lfsrStep {W : Nat} (s t : Word W) (i : Nat) :
    (lfsrStep s t).getLsbD i = (decide (i < W) && if i = W - 1 then feedbackBit s t else s.getLsbD (i + 1)) := by
  rw [lfsrStep, getLsbD_rotateRight1, getLsbD_masked, getLsbD_masked]
  by_cases hi : i < W
  · by_cases htop : i = W - 1
    · simp [htop, show 0 < W by omega]
    · simp [hi, htop, show i + 1 < W by omega]
  · simp [hi]

/-- When every bit above bit 0 is clear, only bit 0 can be tapped. -/
theorem feedbackBit_of_high_clear {W : Nat} {s t : Word W} (hW : 0 < W)
    (hclear : ∀ i, 0 < i → s.getLsbD i = false) : feedbackBit s t = (s.getLsbD 0 && t.getLsbD 0) := by
  have hfold : ∀ i, i < W →
      (s.getLsbD i && t.getLsbD i) = (decide (i = 0) && (s.getLsbD 0 && t.getLsbD 0)) := by
    intro i _
    rcases Nat.eq_zero_or_pos i with rfl | hi
    · simp
    · simp [hclear i hi, Nat.ne_of_gt hi]
  rw [feedbackBit_eq_xorBelow, xorBelow_congr hfold, xorBelow_single]
  simp [hW]

/-- The low bits of the next state are the high bits of `s`, so a step to zero had those clear. -/
theorem high_clear_of_lfsrStep_eq_zero {W : Nat} {s t : Word W} (hstep : lfsrStep s t = 0) {i : Nat} (hi : 0 < i) :
    s.getLsbD i = false := by
  by_cases hiW : i < W
  · have hlow : (lfsrStep s t).getLsbD (i - 1) = false := by simp [hstep]
    rw [getLsbD_lfsrStep] at hlow
    simpa [show i - 1 < W by omega, show i - 1 ≠ W - 1 by omega, show i - 1 + 1 = i by omega] using hlow
  · exact BitVec.getLsbD_of_ge s i (by omega)

/-- With bit 0 tapped only zero steps to zero: the bits above bit 0 were clear, and so the feedback bit is `s[0]` (R25, R127). -/
theorem lfsrStep_ne_zero {W : Nat} {s t : Word W} (hs : s ≠ 0) (ht : t.getLsbD 0 = true) : lfsrStep s t ≠ 0 := by
  intro hstep
  refine hs (BitVec.eq_of_getLsbD_eq fun i hi => Eq.trans ?_ BitVec.getLsbD_zero.symm)
  rcases Nat.eq_zero_or_pos i with rfl | hpos
  · have htop : (lfsrStep s t).getLsbD (W - 1) = false := by simp [hstep]
    rw [getLsbD_lfsrStep, feedbackBit_of_high_clear hi fun _ => high_clear_of_lfsrStep_eq_zero hstep, ht] at htop
    simpa [hi] using htop
  · exact high_clear_of_lfsrStep_eq_zero hstep hpos

/-! ## The invariants -/

@[simp] theorem slot_inv_empty (W : Nat) : (Slot.empty : Slot W).Inv := trivial

theorem slot_inv_holds {W : Nat} (x t : Word W) : (Slot.holds x t).Inv ↔ x ≠ 0 ∧ t.getLsbD 0 = true := Iff.rfl

/-- One more step keeps the invariants of an instance. -/
theorem slot_inv_lfsrStep {W : Nat} {x t : Word W} (hx : x ≠ 0) (ht : t.getLsbD 0 = true) :
    (Slot.holds (lfsrStep x t) t).Inv :=
  (slot_inv_holds _ _).2 ⟨lfsrStep_ne_zero hx ht, ht⟩

/-- Every command keeps the invariants; a `CONSTRUCT` that is accepted establishes them (R25). -/
theorem exec_keeps_inv {i : Instr} {s t : State} (hinv : s.Inv) (h : exec i s = .next t) : t.Inv := by
  obtain ⟨c, sl, po, r⟩ := s
  obtain ⟨-, rfl⟩ | ⟨seed, tapsIn, -, hconstruct⟩ | ⟨-, hnext⟩ := exec_cases h
  · exact hinv
  · obtain ⟨-, rfl⟩ | ⟨-, -, rfl⟩ | ⟨hseed, hmsb, rfl⟩ := hconstruct
    · exact hinv
    · exact hinv
    · exact slot_inv_lfsrStep hseed ((normaliseTaps_bit_zero tapsIn).trans hmsb)
  · obtain ⟨-, rfl⟩ | ⟨x, m, rfl, rfl⟩ := hnext
    · exact hinv
    · obtain ⟨hx, hm⟩ := (slot_inv_holds x m).1 hinv
      exact slot_inv_lfsrStep hx hm

/-- Settles O26: a reset cycle empties the slot, and every command keeps the invariants. -/
theorem invariantsAreKept : Obligations.InvariantsAreKept := by
  intro s t hinv hstep
  obtain rfl | ⟨i, hi⟩ := step_cases hstep
  · exact slot_inv_empty _
  · exact exec_keeps_inv (s := s.takeCycle) hinv hi

/-- Settles O27: the reset state holds no instance. -/
theorem invariantsHoldAtReset : Obligations.InvariantsHoldAtReset :=
  fun c => slot_inv_empty c.W

/-! ## What CONSTRUCT stores, and what every command leaves unchanged -/

/-- Settles O16, by the accepted case of `constructWith`. -/
theorem constructStoresTheSteppedSeed : Obligations.ConstructStoresTheSteppedSeed := by
  rintro ⟨c, sl, po, r⟩ seed tapsIn hseed hmsb
  rw [exec_construct_sameWidth, constructWith_accepted hseed hmsb]
  rfl

/-- Settles O20, outcome by outcome of `exec_cases`. -/
theorem commandFrame : Obligations.CommandFrame := by
  rintro i ⟨c, sl, po, r⟩ t h
  obtain ⟨rfl, rfl⟩ | ⟨seed, tapsIn, rfl, hconstruct⟩ | ⟨rfl, hnext⟩ := exec_cases h
  · exact ⟨sl, _, rfl, fun _ => rfl, nofun, nofun⟩
  · obtain ⟨-, rfl⟩ | ⟨-, -, rfl⟩ | ⟨hseed, hmsb, rfl⟩ := hconstruct
    · exact ⟨sl, _, rfl, nofun, nofun, fun _ _ _ _ _ => rfl⟩
    · exact ⟨sl, _, rfl, nofun, nofun, fun _ _ _ _ _ => rfl⟩
    · refine ⟨_, _, rfl, nofun, nofun, ?_⟩
      rintro V seed' tapsIn' ⟨⟩ hrejected
      have haccepted := (accepted_iff seed tapsIn).2 ⟨hseed, hmsb⟩
      exact absurd haccepted (by simp [hrejected])
  · obtain ⟨rfl, rfl⟩ | ⟨x, m, rfl, rfl⟩ := hnext
    · exact ⟨_, _, rfl, nofun, fun _ => ⟨rfl, rfl⟩, nofun⟩
    · exact ⟨_, _, rfl, nofun, fun _ => ⟨rfl, rfl⟩, nofun⟩

/-! ## The step by the pins -/

/-- A step read off the pins, one branch per kind of cycle (R62, R66, R210); `deferredStep` has the same branches. -/
theorem step_eq (s : State) :
    step s =
      if s.pins.rst then .next s.takeCycle.resetBlock
      else if s.pins.op = 0b00#2 then .next (s.takeCycle.respond .none)
      else if s.pins.op = 0b01#2 then .next (constructWith s.takeCycle s.pins.seed s.pins.tapsIn)
      else if s.pins.op = 0b10#2 then execNext s.takeCycle
      else .refused .reservedOpcode := by
  unfold step
  rw [Pins.word, decode_make]
  refine if_congr .rfl rfl ?_
  obtain hop | hop | hop | hop := bitVec2_cases s.pins.op
  · simp [hop, exec, execIdle]
  · simpa [hop] using exec_construct_sameWidth s.takeCycle s.pins.seed s.pins.tapsIn
  · simp [hop, exec]
  · simp [hop]

/-! ## The flag `constructed` -/

@[simp] theorem constructed_mk (c : Config) (sl : Slot c.W) (po : List (Pins c.W)) (r : Option (Response c.W)) :
    (State.mk c sl po r).constructed = sl.constructed := rfl

@[simp] theorem resetOf_constructed (c : Config) : (State.resetOf c).constructed = false := rfl

/-- Settles O1: every field of the reset state. -/
theorem resetHoldsNoInstance : Obligations.ResetHoldsNoInstance :=
  fun c => ⟨resetOf_cfg c, resetOf_constructed c, slot_state_empty c.W, slot_taps_empty c.W⟩

/-- A command leaves an instance exactly when there was one or the command is a `CONSTRUCT` that is accepted (R28). -/
theorem exec_constructed_iff {i : Instr} {s t : State} (h : exec i s = .next t) :
    t.constructed = true ↔ s.constructed = true ∨
      ∃ seed tapsIn : Word s.cfg.W, i = .construct s.cfg.W seed tapsIn ∧ accepted seed tapsIn = true := by
  obtain ⟨c, sl, po, r⟩ := s
  obtain ⟨rfl, rfl⟩ | ⟨seed, tapsIn, rfl, hconstruct⟩ | ⟨rfl, hnext⟩ := exec_cases h
  · simp
  · obtain ⟨hseed, rfl⟩ | ⟨-, hmsb, rfl⟩ | ⟨hseed, hmsb, rfl⟩ := hconstruct
    · simp [accepted_iff, hseed]
    · simp [accepted_iff, hmsb]
    · have haccepted := (accepted_iff seed tapsIn).2 ⟨hseed, hmsb⟩
      simp [haccepted]
  · obtain ⟨rfl, rfl⟩ | ⟨x, m, rfl, rfl⟩ := hnext <;> simp

theorem exec_next_empty (c : Config) (po : List (Pins c.W)) (r : Option (Response c.W)) :
    exec .next ⟨c, .empty, po, r⟩ = .next ⟨c, .empty, po, some (.err .notConstructed)⟩ := rfl

theorem exec_next_holds (c : Config) (x m : Word c.W) (po : List (Pins c.W)) (r : Option (Response c.W)) :
    exec .next ⟨c, .holds x m, po, r⟩ = .next ⟨c, .holds (lfsrStep x m) m, po, some (.value x)⟩ := rfl

/-- `NEXT` responds `NotConstructed` exactly when there is no instance (R28, R142). -/
theorem exec_next_notConstructed_iff {s t : State} (h : exec .next s = .next t) :
    t.response = some (.err .notConstructed) ↔ s.constructed = false := by
  obtain ⟨c, sl, po, r⟩ := s
  cases sl with
  | empty => rw [exec_next_empty] at h; cases h; simp
  | holds x m => rw [exec_next_holds] at h; cases h; simp

/-- Settles O23, its four parts in order. -/
theorem constructedFlag : Obligations.ConstructedFlag := by
  refine ⟨resetOf_constructed, fun i s t h => exec_constructed_iff h, ?_, fun s t h => exec_next_notConstructed_iff h⟩
  intro s t hrst hstep
  rw [step_eq, if_pos hrst] at hstep
  cases hstep
  rfl

/-! ## The response is no state -/

section
variable {c : Config} (sl : Slot c.W) (po : List (Pins c.W)) (r r' : Option (Response c.W))

theorem pins_ignores_response : (State.mk c sl po r).pins = (State.mk c sl po r').pins := by
  cases po <;> rfl

theorem constructWith_ignores_response (seed tapsIn : Word c.W) :
    constructWith ⟨c, sl, po, r⟩ seed tapsIn = constructWith ⟨c, sl, po, r'⟩ seed tapsIn := by
  unfold constructWith
  cases checkOperands seed tapsIn <;> rfl

theorem execNext_ignores_response : execNext ⟨c, sl, po, r⟩ = execNext ⟨c, sl, po, r'⟩ := by
  cases sl <;> rfl

end

/-- Settles O30, branch by branch of `step_eq`: the pins are the same, and each branch writes the response without reading it. -/
theorem responseIsNeverRead : Obligations.ResponseIsNeverRead := by
  rintro ⟨c, sl, po, r'⟩ r
  rw [step_eq, step_eq ⟨c, sl, po, r'⟩, pins_ignores_response sl po r r']
  have hconstruct := constructWith_ignores_response sl po.tail r r'
  have hnext := execNext_ignores_response sl po.tail r r'
  refine if_congr .rfl rfl (if_congr .rfl rfl (if_congr .rfl ?_ (if_congr .rfl ?_ rfl)))
  · exact congrArg _ (hconstruct _ _)
  · exact hnext

/-! ## The deferred implementation -/

/-- What an outcome of a deferred block stands for in the model. -/
def settleOutcome : Host.Outcome DeferredState Fault Refusal → Host.Outcome State Fault Refusal
  | .next d => .next d.settle
  | .fault r => .fault r
  | .refused r => .refused r

theorem settle_pins (s : State) (owed : Bool) : (DeferredState.mk s owed).settle.pins = s.pins := by
  obtain ⟨c, sl, po, r⟩ := s
  cases po <;> rfl

theorem settle_deferredConstruct (s : State) (owed : Bool) (seed tapsIn : Word s.cfg.W) :
    (deferredConstruct s owed seed tapsIn).settle = constructWith (DeferredState.mk s owed).settle seed tapsIn := by
  unfold deferredConstruct constructWith DeferredState.settle
  cases checkOperands seed tapsIn <;> rfl

theorem settle_deferredNext (s : State) (owed : Bool) :
    .next (deferredNext s owed).settle = execNext (DeferredState.mk s owed).settle := by
  obtain ⟨c, sl, po, r⟩ := s
  cases sl <;> rfl

/-- The commuting square of R35: a cycle of a deferred block is a cycle of the block it stands for. -/
theorem step_settle (d : DeferredState) : step d.settle = settleOutcome (deferredStep d) := by
  obtain ⟨s, owed⟩ := d
  rw [step_eq, settle_pins, deferredStep]
  simp only [apply_ite settleOutcome]
  refine if_congr .rfl rfl (if_congr .rfl rfl (if_congr .rfl ?_ (if_congr .rfl ?_ rfl)))
  · exact congrArg _ (settle_deferredConstruct s.takeCycle owed s.pins.seed s.pins.tapsIn).symm
  · exact (settle_deferredNext s.takeCycle owed).symm

/-- The square, for a run of any length. -/
theorem steps_settle (n : Nat) (d : DeferredState) : steps n d.settle = settleOutcome (deferredSteps n d) := by
  induction n generalizing d with
  | zero => rfl
  | succ n ih =>
    rw [steps, deferredSteps, step_settle]
    cases deferredStep d with
    | next e => exact ih e
    | fault r => rfl
    | refused r => rfl

/-- Settles O36, from `steps_settle`: the two runs have the same kind of outcome. -/
theorem deferredIsIndistinguishable : Obligations.DeferredIsIndistinguishable := by
  intro n d
  rw [steps_settle]
  cases deferredSteps n d with
  | next e =>
    refine ⟨?_, nofun, ?_⟩
    · rintro _ ⟨⟩
      exact ⟨rfl, rfl⟩
    · rintro _ ⟨⟩
      exact ⟨e, rfl, rfl⟩
  | fault r => exact nomatch r
  | refused r =>
    refine ⟨nofun, ?_, nofun⟩
    rintro _ ⟨⟩
    rfl

end Sys2Proof.Machine
end

section
/-! PROOFS. What the block takes and how its commands repeat (spec 20_memory.md): operands of another width, and the idempotency
of `IDLE` and `CONSTRUCT`. -/

namespace Sys2Proof.Machine

/-! ## Operands of another width -/

/-- Settles O17, by the refusing branch of `execConstruct`. -/
theorem constructOfAnotherWidthIsRefused : Obligations.ConstructOfAnotherWidthIsRefused := by
  intro s W seed tapsIn hwidth
  change execConstruct W seed tapsIn s = _
  rw [execConstruct, dif_neg hwidth]

/-! ## Idempotency -/

section
variable {c : Config} (sl : Slot c.W) (r : Option (Response c.W)) {p : Pins c.W}

/-- A `CONSTRUCT` leads to a slot and a response that the same `CONSTRUCT` leaves as they are, whatever the host drives next (R48). -/
theorem constructWith_reaches_fixed_point (seed tapsIn : Word c.W) :
    ∃ (sl' : Slot c.W) (r' : Option (Response c.W)), ∀ po,
      constructWith ⟨c, sl, po, r⟩ seed tapsIn = ⟨c, sl', po, r'⟩ ∧
      constructWith ⟨c, sl', po, r'⟩ seed tapsIn = ⟨c, sl', po, r'⟩ := by
  by_cases hseed : seed = 0
  · exact ⟨_, _, fun _ => ⟨constructWith_zeroSeed hseed, constructWith_zeroSeed hseed⟩⟩
  · cases hmsb : tapsIn.getLsbD (c.W - 1) with
    | false => exact ⟨_, _, fun _ => ⟨constructWith_noMsb hseed hmsb, constructWith_noMsb hseed hmsb⟩⟩
    | true => exact ⟨_, _, fun _ => ⟨constructWith_accepted hseed hmsb, constructWith_accepted hseed hmsb⟩⟩

/-- A cycle that presents an `IDLE` or a `CONSTRUCT` leads to a slot and a response that the same cycle leaves as they are (R48). -/
theorem step_reaches_fixed_point (hrst : p.rst = false) (hop : p.op = 0b00#2 ∨ p.op = 0b01#2) :
    ∃ (sl' : Slot c.W) (r' : Option (Response c.W)), ∀ po,
      step ⟨c, sl, p :: po, r⟩ = .next ⟨c, sl', po, r'⟩ ∧
      step ⟨c, sl', p :: po, r'⟩ = .next ⟨c, sl', po, r'⟩ := by
  obtain hidle | hconstruct := hop
  · exact ⟨sl, some .none, fun _ => ⟨step_idle hrst hidle, step_idle hrst hidle⟩⟩
  · obtain ⟨sl', r', hfixed⟩ := constructWith_reaches_fixed_point sl r p.seed p.tapsIn
    refine ⟨sl', r', fun po => ?_⟩
    obtain ⟨hfirst, hagain⟩ := hfixed po
    rw [step_construct hrst hconstruct, step_construct hrst hconstruct, hfirst, hagain]
    exact ⟨rfl, rfl⟩

end

/-- A `NEXT` cycle with an instance returns its `state` and advances it (R141). -/
theorem step_next_holds (c : Config) (x m : Word c.W) (po : List (Pins c.W)) (r : Option (Response c.W)) :
    step ⟨c, .holds x m, Pins.next c.W :: po, r⟩ = .next ⟨c, .holds (lfsrStep x m) m, po, some (.value x)⟩ :=
  (step_next rfl rfl).trans (exec_next_holds c x m po r)

/-- Settles O24: the first cycle already reaches the fixed point of `IDLE` or `CONSTRUCT`, and each `NEXT` makes its own step. -/
theorem idempotency : Obligations.Idempotency := by
  constructor
  · rintro ⟨c, sl, po, r⟩ p hrst hop
    obtain ⟨sl', r', hfixed⟩ := step_reaches_fixed_point sl r hrst hop
    calc steps 2 ⟨c, sl, p :: p :: po, r⟩
      _ = steps 1 ⟨c, sl', p :: po, r'⟩ := steps_succ (hfixed (p :: po)).1
      _ = step ⟨c, sl', p :: po, r'⟩ := steps_one _
      _ = .next ⟨c, sl', po, r'⟩ := (hfixed po).2
      _ = step ⟨c, sl, p :: po, r⟩ := (hfixed po).1.symm
      _ = steps 1 ⟨c, sl, p :: po, r⟩ := (steps_one _).symm
  · rintro ⟨c, _ | ⟨x, t⟩, po, r⟩ _ _ ⟨⟩
    calc steps 2 ⟨c, .holds x t, Pins.next c.W :: Pins.next c.W :: po, r⟩
      _ = steps 1 ⟨c, .holds (lfsrStep x t) t, Pins.next c.W :: po, some (.value x)⟩ :=
        steps_succ (step_next_holds c x t _ r)
      _ = step ⟨c, .holds (lfsrStep x t) t, Pins.next c.W :: po, some (.value x)⟩ := steps_one _
      _ = .next ⟨c, .holds (lfsrStep (lfsrStep x t) t) t, po, some (.value (lfsrStep x t))⟩ :=
        step_next_holds c (lfsrStep x t) t po _

end Sys2Proof.Machine
end

section
/-! PROOFS. The encoding (spec 30_encoding.md): the layout of the command word, its decoder and encoder, which words stop a step,
the response ports, and commands written as text. -/

namespace Sys2Proof

/-! ## The command word and its decoder -/

/-- Every command of a block, and no other, has a word on its ports (R45, R61). -/
theorem hasWord (i : Instr) : Laws.HasWord.Statement i := by
  cases i with
  | idle => exact Laws.HasWord.idle
  | construct W seed tapsIn => exact Laws.HasWord.construct W seed tapsIn
  | next => exact Laws.HasWord.next

theorem encode_construct (W : Nat) (seed tapsIn : Word W) :
    encode W (.construct W seed tapsIn) = some (CmdWord.make 0b01#2 seed tapsIn) := by
  simp [encode]

/-- An operand of another width has no word here (R45). -/
theorem width_of_encode_construct {V W : Nat} {seed tapsIn : Word V} {w : CmdWord W}
    (h : encode W (.construct V seed tapsIn) = some w) : V = W := by
  by_contra hne
  simp [encode, hne] at h

theorem decode_make_idle {W : Nat} (seed tapsIn : Word W) : decode W (CmdWord.make 0b00#2 seed tapsIn) = .ok .idle := by
  rw [decode_make, if_pos rfl]

theorem decode_make_construct {W : Nat} (seed tapsIn : Word W) :
    decode W (CmdWord.make 0b01#2 seed tapsIn) = .ok (.construct W seed tapsIn) := by
  rw [decode_make, if_neg (by decide), if_pos rfl]

theorem decode_make_next {W : Nat} (seed tapsIn : Word W) : decode W (CmdWord.make 0b10#2 seed tapsIn) = .ok .next := by
  rw [decode_make, if_neg (by decide), if_neg (by decide), if_pos rfl]

theorem decode_make_reserved {W : Nat} (seed tapsIn : Word W) :
    decode W (CmdWord.make 0b11#2 seed tapsIn) = .error .reservedOpcode := by
  rw [decode_make, if_neg (by decide), if_neg (by decide), if_neg (by decide)]

theorem decode_of_encode {W : Nat} {i : Instr} {w : CmdWord W} (h : encode W i = some w) : decode W w = .ok i := by
  cases i with
  | idle => cases h; exact decode_make_idle 0 0
  | construct V seed tapsIn =>
    obtain rfl := width_of_encode_construct h
    rw [encode_construct] at h
    cases h
    exact decode_make_construct seed tapsIn
  | next => cases h; exact decode_make_next 0 0

/-- The inversion of `decode`: a word that decodes is an `IDLE`, a `CONSTRUCT` of its two operand fields, or a `NEXT`. -/
theorem decode_cases {W : Nat} {w : CmdWord W} {i : Instr} (h : decode W w = .ok i) :
    i = .idle ∨ (w = CmdWord.make 0b01#2 w.seed w.tapsIn ∧ i = .construct W w.seed w.tapsIn) ∨ i = .next := by
  have hfields := make_fields w
  rw [← hfields] at h
  obtain hop | hop | hop | hop := Machine.bitVec2_cases w.op <;> rw [hop] at h hfields
  · rw [decode_make_idle] at h; cases h; exact .inl rfl
  · rw [decode_make_construct] at h; cases h; exact .inr (.inl ⟨hfields.symm, rfl⟩)
  · rw [decode_make_next] at h; cases h; exact .inr (.inr rfl)
  · rw [decode_make_reserved] at h; cases h

/-- Settles O11: a command of the block has a word, and the word decodes to it. -/
theorem decodeOfEncode : Obligations.DecodeOfEncode := by
  intro c i hwf
  obtain ⟨w, hw⟩ := Option.isSome_iff_exists.1 ((hasWord i c).1 hwf)
  exact ⟨w, hw, decode_of_encode hw⟩

/-- Settles O10, one lemma per code. -/
theorem opcodeMap : Obligations.OpcodeMap := fun _ seed tapsIn =>
  ⟨decode_make_idle seed tapsIn, decode_make_construct seed tapsIn, decode_make_next seed tapsIn,
    decode_make_reserved seed tapsIn⟩

/-- Settles O12, case by case of `decode_cases`. -/
theorem encodeOfDecode : Obligations.EncodeOfDecode := by
  intro c w i h
  obtain rfl | ⟨hw, rfl⟩ | rfl := decode_cases h
  · exact ⟨rfl, nofun⟩
  · refine ⟨beq_self_eq_true c.W, ?_⟩
    rintro V seed tapsIn ⟨⟩
    rw [encode_construct, ← hw]
  · exact ⟨rfl, nofun⟩

/-- Settles O9: the three fields lie end to end, `taps_in` lowest. -/
theorem commandWordLayout : Obligations.CommandWordLayout := by
  intro W op seed tapsIn i
  rw [CmdWord.make, BitVec.getLsbD_cast, BitVec.getLsbD_append, BitVec.getLsbD_append]
  by_cases htaps : i < W
  · rw [if_pos htaps, if_pos htaps]
  · rw [if_neg htaps, if_neg htaps]
    refine if_congr (by omega) rfl ?_
    rw [show i - W - W = i - 2 * W by omega]

/-- Settles O7, word by word: the widths are numerals and each decoder runs. -/
theorem specWordsDecode : Obligations.SpecWordsDecode :=
  ⟨by decide, by decide, by decide, by decide, by decide, by decide, by decide⟩

end Sys2Proof

namespace Sys2Proof.Machine

/-! ## Which words stop a step -/

/-- `NEXT` answers in every state. -/
theorem execNext_answers (s : State) : ∃ t, execNext s = .next t := by
  obtain ⟨c, sl, po, r⟩ := s
  cases sl with
  | empty => exact ⟨_, rfl⟩
  | holds x m => exact ⟨_, rfl⟩

/-- A step answers unless the reserved code is on the pins of a cycle without reset (R66, R68). -/
theorem step_answers {s : State} (h : s.pins.rst = false → s.pins.op ≠ 0b11#2) : ∃ t, step s = .next t := by
  rw [step_eq]
  cases hrst : s.pins.rst with
  | true => exact ⟨_, rfl⟩
  | false =>
    obtain hop | hop | hop | hop := bitVec2_cases s.pins.op
    · simp [hop]
    · simp [hop]
    · simpa [hop] using execNext_answers s.takeCycle
    · exact absurd hop (h hrst)

/-- The reserved code without reset is refused, whatever else is on the pins (R66). -/
theorem step_of_reserved {s : State} (hrst : s.pins.rst = false) (hop : s.pins.op = 0b11#2) :
    step s = .refused .reservedOpcode := by
  simp [step_eq, hrst, hop]

/-- Settles O5, by `step_reserved` on the cycle presented. -/
theorem reservedCodeIsRefused : Obligations.ReservedCodeIsRefused :=
  fun _ _ hrst hop => step_reserved hrst hop

/-- Settles O6: the reserved code is refused by name, and every other step answers. -/
theorem onlyTheReservedCodeStops : Obligations.OnlyTheReservedCodeStops := by
  intro s
  refine ⟨nofun, fun r => ⟨fun hrefused => ?_, ?_⟩⟩
  · by_cases hreserved : s.pins.rst = false ∧ s.pins.op = 0b11#2
    · obtain ⟨hrst, hop⟩ := hreserved
      rw [step_of_reserved hrst hop] at hrefused
      cases hrefused
      exact ⟨hrst, hop, rfl⟩
    · obtain ⟨t, ht⟩ := step_answers fun hrst hop => hreserved ⟨hrst, hop⟩
      rw [ht] at hrefused
      cases hrefused
  · rintro ⟨hrst, hop, rfl⟩
    exact step_of_reserved hrst hop

/-! ## The words of the opcode table -/

/-- A number of ten bits stands for what its word decodes to, and for nothing if the decoder rejects it. -/
theorem decodeTableWord_eq {w : Nat} (nbits : Nat) (h : w < 2 ^ (2 + 2 * Config.table.W)) :
    decodeTableWord nbits w = (decode Config.table.W (BitVec.ofNat _ w)).toOption := by
  rw [decodeTableWord, if_pos h]
  cases decode Config.table.W (BitVec.ofNat _ w) <;> rfl

/-- The step that takes a word placed on the pins of the reset state (R61, R62). -/
theorem step_reset_withFetchWord (nbits w : Nat) :
    step (State.reset.withFetchWord nbits w) =
      step ⟨Config.table, .empty, [Pins.ofWord (BitVec.ofNat _ w)], none⟩ := rfl

/-- A cycle without reset whose word the decoder rejects is refused (R66). -/
theorem step_rejected {c : Config} {sl : Slot c.W} {po : List (Pins c.W)} {r : Option (Response c.W)} {p : Pins c.W}
    {e : DecodeError} (hrst : p.rst = false) (hdecode : decode c.W p.word = .error e) :
    step ⟨c, sl, p :: po, r⟩ = .refused .reservedOpcode := by
  rw [step_cons]
  simp only [hrst, hdecode, Bool.false_eq_true, if_false]

/-- Settles O8, by what the decoder makes of the word. -/
theorem tableWordRunsAfterReset : Obligations.TableWordRunsAfterReset := by
  intro nbits w hw
  rw [decodeTableWord_eq nbits hw, step_reset_withFetchWord]
  have hword := word_ofWord (W := Config.table.W) (BitVec.ofNat _ w)
  cases hdecode : decode Config.table.W (BitVec.ofNat _ w) with
  | ok i =>
    refine ⟨?_, nofun⟩
    rintro _ ⟨⟩
    exact step_command rfl ((congrArg _ hword).trans hdecode)
  | error e => exact ⟨nofun, fun _ => step_rejected rfl ((congrArg _ hword).trans hdecode)⟩

/-! ## The response ports -/

/-- The `value` port carries data exactly in a `Value` response (R64). -/
theorem value?_eq_some_iff {W : Nat} (r : Response W) (v : Word W) : r.value? = some v ↔ r = .value v := by
  cases r <;> simp [Response.value?]

/-- Settles O25: the codes by evaluation, and the `value` port by `value?_eq_some_iff`. -/
theorem responsePorts : Obligations.ResponsePorts :=
  fun _ v => ⟨rfl, rfl, rfl, rfl, rfl, rfl, fun r => value?_eq_some_iff r v⟩

/-! ## Numerals as operands -/

theorem operandOfText_of_numeral {n : Nat} {text : List Char} (W : Nat) (h : numeralValue text = some n) :
    operandOfText W text = if n < 2 ^ W then some (BitVec.ofNat W n) else none := by
  simp only [operandOfText, h]

/-- Settles O53, the two branches of `operandOfText_of_numeral`. -/
theorem numeralsBelowTwoToTheW : Obligations.NumeralsBelowTwoToTheW := by
  intro W n text h
  rw [operandOfText_of_numeral W h]
  constructor
  · exact fun hlt => ⟨BitVec.ofNat W n, if_pos hlt, (BitVec.toNat_ofNat n W).trans (Nat.mod_eq_of_lt hlt)⟩
  · exact fun hle => if_neg (Nat.not_lt.2 hle)

/-- The character that `binaryDigits` writes for a bit is the digit of that bit. -/
theorem digitValue_bit (b : Bool) : digitValue 2 (if b then '1' else '0') = some b.toNat := by
  cases b <;> rfl

theorem bit_ne_underscore (b : Bool) : (if b then '1' else '0') ≠ '_' := by
  cases b <;> decide

/-- Reading `n` binary digits shifts what was read before by `n` places and adds the low `n` bits. -/
theorem numeralTail_binaryDigits {W : Nat} (v : Word W) (n m : Nat) :
    numeralTail 2 m true (binaryDigits v n) = some (m * 2 ^ n + v.toNat % 2 ^ n) := by
  induction n generalizing m with
  | zero => simp [binaryDigits, numeralTail, Nat.mod_one]
  | succ n ih =>
    have hbit : (v.getLsbD n).toNat = v.toNat / 2 ^ n % 2 := Nat.toNat_testBit v.toNat n
    rw [binaryDigits, numeralTail, if_neg (bit_ne_underscore _), digitValue_bit]
    simp only [ih, hbit]
    rw [Nat.mod_pow_succ, Nat.pow_succ]
    congr 1
    ring

/-- The digits of a nonempty numeral are read like digits after a 0. -/
theorem digitsValue_cons {base : Nat} {c : Char} (cs : List Char) (h : c ≠ '_') :
    digitsValue base (c :: cs) = numeralTail base 0 true (c :: cs) := by
  rw [digitsValue, numeralTail, if_neg h, Nat.zero_mul]
  simp only [Nat.zero_add]

theorem digitsValue_binaryDigits {W : Nat} (v : Word W) (hW : 0 < W) : digitsValue 2 (binaryDigits v W) = some v.toNat := by
  obtain ⟨n, rfl⟩ := Nat.exists_eq_succ_of_ne_zero hW.ne'
  rw [binaryDigits, digitsValue_cons _ (bit_ne_underscore _), ← binaryDigits, numeralTail_binaryDigits,
    Nat.zero_mul, Nat.zero_add, Nat.mod_eq_of_lt v.isLt]

/-- An operand written out in binary is read back (R69, R71). -/
theorem operandOfText_renderOperand {W : Nat} (v : Word W) (hW : 0 < W) : operandOfText W (renderOperand v) = some v := by
  have hvalue : numeralValue (renderOperand v) = some v.toNat := digitsValue_binaryDigits v hW
  rw [operandOfText_of_numeral W hvalue, if_pos v.isLt, BitVec.ofNat_toNat, BitVec.setWidth_eq]

/-! ## Tokens -/

/-- The characters that are part of a token: none that ends it. -/
def isTokenChar (c : Char) : Bool := c != ';' && c != ',' && !isBlankChar c

/-- A text that is one token of a line, other than the comma. -/
def IsToken (cs : List Char) : Prop := cs ≠ [] ∧ cs.all isTokenChar = true

theorem tokensOf_tokenChar {c : Char} (token cs : List Char) (h : isTokenChar c = true) :
    tokensOf token (c :: cs) = tokensOf (c :: token) cs := by
  simp only [isTokenChar, Bool.and_eq_true, bne_iff_ne, Bool.not_eq_true'] at h
  obtain ⟨⟨hsemicolon, hcomma⟩, hblank⟩ := h
  rw [tokensOf, if_neg hsemicolon, if_neg hcomma, hblank]
  rfl

theorem tokensOf_append {cs : List Char} (token rest : List Char) (h : cs.all isTokenChar = true) :
    tokensOf token (cs ++ rest) = tokensOf (cs.reverse ++ token) rest := by
  induction cs generalizing token with
  | nil => rfl
  | cons c cs ih =>
    rw [List.all_cons, Bool.and_eq_true] at h
    obtain ⟨hc, hcs⟩ := h
    rw [List.cons_append, tokensOf_tokenChar _ _ hc, ih _ hcs, List.reverse_cons, List.append_assoc, List.singleton_append]

theorem pushToken_reverse {cs : List Char} (tokens : List (List Char)) (h : cs ≠ []) :
    pushToken cs.reverse tokens = cs :: tokens := by
  simp [pushToken, h]

section
variable {cs : List Char} (h : IsToken cs) (rest : List Char)
include h

/-! A token of `renderCommand` ends at the end of the line, at a space or at a comma. -/

theorem tokensOf_isToken_append : tokensOf [] (cs ++ rest) = tokensOf cs.reverse rest := by
  rw [tokensOf_append [] rest h.2, List.append_nil]

theorem tokensOf_isToken : tokensOf [] cs = [cs] := by
  rw [← List.append_nil cs, tokensOf_isToken_append h, tokensOf, pushToken_reverse _ h.1, List.append_nil]

theorem tokensOf_isToken_space : tokensOf [] (cs ++ ' ' :: rest) = cs :: tokensOf [] rest := by
  rw [tokensOf_isToken_append h]
  exact pushToken_reverse _ h.1

theorem tokensOf_isToken_comma : tokensOf [] (cs ++ ',' :: rest) = cs :: [','] :: tokensOf [] rest := by
  rw [tokensOf_isToken_append h]
  exact pushToken_reverse _ h.1

end

theorem tokensOf_space (rest : List Char) : tokensOf [] (' ' :: rest) = tokensOf [] rest := rfl

theorem all_isTokenChar_binaryDigits {W : Nat} (v : Word W) (n : Nat) : (binaryDigits v n).all isTokenChar = true := by
  induction n with
  | zero => rfl
  | succ n ih =>
    rw [binaryDigits, List.all_cons, ih, Bool.and_true]
    cases v.getLsbD n <;> rfl

theorem isToken_renderOperand {W : Nat} (v : Word W) : IsToken (renderOperand v) :=
  ⟨nofun, all_isTokenChar_binaryDigits v W⟩

/-! ## Lines -/

theorem parseLine_of_tokensOf {line token : List Char} {tokens : List (List Char)} (W : Nat)
    (h : tokensOf [] line = token :: tokens) : parseLine W line = (commandOfTokens W (token :: tokens)).map some := by
  simp only [parseLine, h]

/-- The line of a `CONSTRUCT` has four tokens (R69). -/
theorem tokensOf_renderCommand_construct {W : Nat} (seed tapsIn : Word W) :
    tokensOf [] (renderCommand (.construct W seed tapsIn)) =
      [['C', 'O', 'N', 'S', 'T', 'R', 'U', 'C', 'T'], renderOperand seed, [','], renderOperand tapsIn] := by
  have hmnemonic : IsToken ['C', 'O', 'N', 'S', 'T', 'R', 'U', 'C', 'T'] := ⟨nofun, rfl⟩
  calc tokensOf [] (renderCommand (.construct W seed tapsIn))
    _ = tokensOf [] (['C', 'O', 'N', 'S', 'T', 'R', 'U', 'C', 'T'] ++
          ' ' :: (renderOperand seed ++ ',' :: ' ' :: renderOperand tapsIn)) := by simp [renderCommand]
    _ = _ := by
      rw [tokensOf_isToken_space hmnemonic, tokensOf_isToken_comma (isToken_renderOperand seed), tokensOf_space,
        tokensOf_isToken (isToken_renderOperand tapsIn)]

theorem commandOfTokens_construct {W : Nat} {a b : List Char} {seed tapsIn : Word W} (ha : operandOfText W a = some seed)
    (hb : operandOfText W b = some tapsIn) :
    commandOfTokens W [['C', 'O', 'N', 'S', 'T', 'R', 'U', 'C', 'T'], a, [','], b] = some (.construct W seed tapsIn) := by
  simp only [commandOfTokens, ha, hb]

/-- Settles O54: the tokens of the line are the mnemonic and the operands, and each operand is read back. -/
theorem textRoundTrip : Obligations.TextRoundTrip := by
  intro c i hwf
  cases i with
  | idle => exact parseLine_of_tokensOf c.W (tokensOf_isToken (cs := ['I', 'D', 'L', 'E']) ⟨nofun, rfl⟩)
  | construct V seed tapsIn =>
    obtain rfl : V = c.W := eq_of_beq hwf
    have hW : 0 < c.W := Nat.lt_of_lt_of_le Nat.zero_lt_two c.two_le
    rw [parseLine_of_tokensOf c.W (tokensOf_renderCommand_construct seed tapsIn),
      commandOfTokens_construct (operandOfText_renderOperand seed hW) (operandOfText_renderOperand tapsIn hW)]
    rfl
  | next => exact parseLine_of_tokensOf c.W (tokensOf_isToken (cs := ['N', 'E', 'X', 'T']) ⟨nofun, rfl⟩)

end Sys2Proof.Machine
end

section
/-! PROOFS. The datapath primitives (spec 40_primitives.md): the bitwise operations, bit reversal, the parity and the rotate. -/

namespace Sys2Proof.Machine

/-! ## The bitwise operations -/

/-- R82's complement as a number. -/
theorem toNat_bitNot {W : Nat} (a : Word W) : (bitNot a).toNat = 2 ^ W - 1 - a.toNat := BitVec.toNat_not

/-- The constant `~1` of R122 as a number (R82). -/
theorem toNat_bitNot_one {W : Nat} (hW : 0 < W) : (bitNot 1#W).toNat = 2 ^ W - 2 := by
  rw [toNat_bitNot, BitVec.toNat_ofNat, Nat.mod_eq_of_lt (Nat.one_lt_two_pow hW.ne'), Nat.sub_sub]

/-- Settles O55: the bits are the library's, the complement is `toNat_bitNot`, and the step is written with these operations. -/
theorem bitwiseOperations : Obligations.BitwiseOperations := by
  intro W a b
  refine ⟨fun i hi => ⟨?_, ?_, ?_, ?_⟩, ?_, ?_, toNat_bitNot a, toNat_bitNot_one, rfl⟩
  · exact BitVec.getLsbD_and
  · exact BitVec.getLsbD_or
  · rw [bitNot_eq, BitVec.getLsbD_not, decide_eq_true hi, Bool.true_and]
  · exact BitVec.getLsbD_xor
  · exact BitVec.and_zero
  · exact BitVec.and_allOnes

/-! ## The population count -/

theorem popCountBelow_eq_sum {W : Nat} (v : Word W) (n : Nat) :
    popCountBelow v n = ∑ i ∈ Finset.range n, (v.getLsbD i).toNat := by
  induction n with
  | zero => rfl
  | succ n ih => rw [popCountBelow, ih, Finset.sum_range_succ]

/-- The count is the sum of the bits, however they are written (R85). -/
theorem popCount_eq_sum {W : Nat} {v : Word W} {f : Nat → Bool} (h : ∀ i, i < W → v.getLsbD i = f i) :
    popCount v = ∑ i ∈ Finset.range W, (f i).toNat := by
  rw [popCount, popCountBelow_eq_sum]
  exact Finset.sum_congr rfl fun i hi => congrArg Bool.toNat (h i (Finset.mem_range.mp hi))

theorem popCount_zero (W : Nat) : popCount (0 : Word W) = 0 :=
  (popCount_eq_sum fun _ _ => BitVec.getLsbD_zero).trans Finset.sum_const_zero

theorem popCount_allOnes (W : Nat) : popCount (BitVec.allOnes W) = W := by
  have hbit : ∀ i, i < W → (BitVec.allOnes W).getLsbD i = true := fun i hi => by
    rw [BitVec.getLsbD_allOnes, decide_eq_true hi]
  rw [popCount_eq_sum hbit, Bool.toNat_true, Finset.sum_const, Finset.card_range, smul_eq_mul, Nat.mul_one]

/-! ## Bit reversal -/

/-- R84's definition, at the `W` places. -/
theorem getLsbD_bitReverse_of_lt {W i : Nat} (v : Word W) (hi : i < W) :
    (bitReverse v).getLsbD i = v.getLsbD (W - 1 - i) := by
  rw [getLsbD_bitReverse, decide_eq_true hi, Bool.true_and]

/-- A word is the reversal of `v` when its bits are those of `v` from the top down (R84). -/
theorem bitReverse_eq_iff {W : Nat} {v w : Word W} :
    bitReverse v = w ↔ ∀ i, i < W → v.getLsbD (W - 1 - i) = w.getLsbD i := by
  constructor
  · rintro rfl i hi
    exact (getLsbD_bitReverse_of_lt v hi).symm
  · exact fun h => BitVec.eq_of_getLsbD_eq fun i hi => (getLsbD_bitReverse_of_lt v hi).trans (h i hi)

/-- Reversal only reorders the bits that are counted (R84). -/
theorem popCount_bitReverse {W : Nat} (v : Word W) : popCount (bitReverse v) = popCount v := by
  rw [popCount_eq_sum fun _ => getLsbD_bitReverse_of_lt v, popCount_eq_sum fun _ _ => rfl,
    Finset.sum_range_reflect fun i => (v.getLsbD i).toNat]

theorem bitReverse_bitReverse {W : Nat} (v : Word W) : bitReverse (bitReverse v) = v :=
  bitReverse_eq_iff.mpr fun i hi => by
    rw [getLsbD_bitReverse_of_lt v (by omega), show W - 1 - (W - 1 - i) = i by omega]

/-- Reversal takes bit 0 to the top bit (R84). -/
theorem bitReverse_one (W : Nat) : bitReverse 1#W = 1#W <<< (W - 1) :=
  bitReverse_eq_iff.mpr fun i hi => by
    by_cases htop : i = W - 1
    · simp [htop, BitVec.getLsbD_one]
    · simp [BitVec.getLsbD_one, show W - 1 - i ≠ 0 by omega, show i < W - 1 by omega]

theorem bitReverse_zero (W : Nat) : bitReverse (0 : Word W) = 0 :=
  bitReverse_eq_iff.mpr fun _ _ => by simp

theorem bitReverse_allOnes (W : Nat) : bitReverse (BitVec.allOnes W) = BitVec.allOnes W :=
  bitReverse_eq_iff.mpr fun i hi => by simp [hi, show W - 1 - i < W by omega]

theorem bitReverse_bitAnd {W : Nat} (a b : Word W) : bitReverse (bitAnd a b) = bitAnd (bitReverse a) (bitReverse b) :=
  bitReverse_eq_iff.mpr fun i hi => by simp [hi]

theorem bitReverse_bitOr {W : Nat} (a b : Word W) : bitReverse (bitOr a b) = bitOr (bitReverse a) (bitReverse b) :=
  bitReverse_eq_iff.mpr fun i hi => by simp [hi]

theorem bitReverse_bitXor {W : Nat} (a b : Word W) : bitReverse (bitXor a b) = bitXor (bitReverse a) (bitReverse b) :=
  bitReverse_eq_iff.mpr fun i hi => by simp [hi]

theorem bitReverse_bitNot {W : Nat} (a : Word W) : bitReverse (bitNot a) = bitNot (bitReverse a) :=
  bitReverse_eq_iff.mpr fun i hi => by simp [hi, show W - 1 - i < W by omega]

/-- Settles O37: the values and the palindromes by `bitReverse_eq_iff`, the count by reordering its sum. -/
theorem bitReverseLaws : Obligations.BitReverseLaws := by
  intro W v a b
  refine ⟨fun _ => getLsbD_bitReverse_of_lt v, bitReverse_bitReverse v, bitReverse_zero W, bitReverse_allOnes W,
    ?_, bitReverse_one W, popCount_bitReverse v, bitReverse_bitAnd a b, bitReverse_bitOr a b, bitReverse_bitXor a b,
    bitReverse_bitNot a, ?_⟩
  · rw [← bitReverse_one, bitReverse_bitReverse]
  · exact bitReverse_eq_iff.trans (forall₂_congr fun _ _ => eq_comm)

/-! ## The parity -/

theorem parity_zero (W : Nat) : parity (0 : Word W) = false := by
  rw [parity, popCount_zero]
  rfl

theorem parity_bitXor {W : Nat} (a b : Word W) : parity (bitXor a b) = (parity a ^^ parity b) := by
  rw [parity_eq_xorBelow, parity_eq_xorBelow, parity_eq_xorBelow, ← xorBelow_xor]
  exact xorBelow_congr fun _ _ => BitVec.getLsbD_xor

/-- The fold over a word with one bit set meets exactly that bit (R86). -/
theorem parity_single {W k : Nat} (hk : k < W) : parity (1#W <<< k) = true := by
  have hbit : ∀ i, i < W → (1#W <<< k).getLsbD i = (decide (i = k) && true) := by
    intro i hi
    rw [BitVec.getLsbD_shiftLeft, getLsbD_oneWord]
    rcases Nat.lt_trichotomy i k with h | rfl | h
    · simp [h, h.ne]
    · simp [hi, show 0 < W by omega]
    · simp [h.ne', show i - k ≠ 0 by omega]
  rw [parity_eq_xorBelow, xorBelow_congr hbit, xorBelow_single, decide_eq_true hk, Bool.true_and]

theorem parity_allOnes_iff (W : Nat) : parity (BitVec.allOnes W) = true ↔ W % 2 = 1 := by
  rw [parity, popCount_allOnes, beq_iff_eq]

/-- Settles O38: XOR and single bits through the fold, 0 and all ones through the count. -/
theorem parityIsTheXorFold : Obligations.ParityIsTheXorFold :=
  fun W v a b => ⟨parity_eq_xorBelow v, parity_zero W, parity_bitXor a b, fun _ => parity_single, parity_allOnes_iff W⟩

/-! ## The rotate -/

/-- The rotate moves every bit one place down the circle of the `W` places (R87). -/
theorem getLsbD_rotateRight1_mod {W i : Nat} (v : Word W) (hi : i < W) :
    (rotateRight1 v).getLsbD i = v.getLsbD ((i + 1) % W) := by
  rw [getLsbD_rotateRight1, decide_eq_true hi, Bool.true_and]
  split
  next htop => rw [show i + 1 = W by omega, Nat.mod_self]
  next hlow => rw [Nat.mod_eq_of_lt (by omega)]

/-- The rotate counts bit 0 last instead of first (R87). -/
theorem popCount_rotateRight1 {W : Nat} (v : Word W) : popCount (rotateRight1 v) = popCount v := by
  cases W with
  | zero => rfl
  | succ n =>
    have hlow : ∀ i ∈ Finset.range n, (v.getLsbD ((i + 1) % (n + 1))).toNat = (v.getLsbD (i + 1)).toNat := by
      intro i hi
      rw [Nat.mod_eq_of_lt (Nat.succ_lt_succ (Finset.mem_range.mp hi))]
    rw [popCount_eq_sum fun _ => getLsbD_rotateRight1_mod v, popCount_eq_sum fun _ _ => rfl, Finset.sum_range_succ,
      Finset.sum_range_succ', Nat.mod_self, Finset.sum_congr rfl hlow]

theorem getLsbD_iterate_rotateRight1 {W i : Nat} (v : Word W) (k : Nat) (hi : i < W) :
    (rotateRight1^[k] v).getLsbD i = v.getLsbD ((i + k) % W) := by
  induction k generalizing v with
  | zero => rw [Function.iterate_zero_apply, Nat.add_zero, Nat.mod_eq_of_lt hi]
  | succ k ih =>
    rw [Function.iterate_succ_apply, ih, getLsbD_rotateRight1_mod v (Nat.mod_lt _ (by omega)), Nat.mod_add_mod, Nat.add_assoc]

/-- After `W` rotates every bit has gone once round (R87). -/
theorem iterate_rotateRight1_width {W : Nat} (v : Word W) : rotateRight1^[W] v = v :=
  BitVec.eq_of_getLsbD_eq fun i hi => by
    rw [getLsbD_iterate_rotateRight1 v W hi, Nat.add_mod_right, Nat.mod_eq_of_lt hi]

/-- The inverse of the rotate is `W - 1` further rotates (R87). -/
theorem rotateRight1_bijective {W : Nat} (hW : 0 < W) : Function.Bijective (rotateRight1 (W := W)) := by
  obtain ⟨n, rfl⟩ : ∃ n, W = n + 1 := ⟨W - 1, (Nat.sub_add_cancel hW).symm⟩
  refine Function.bijective_iff_has_inverse.mpr ⟨rotateRight1^[n], fun v => ?_, fun v => ?_⟩
  · exact iterate_rotateRight1_width v
  · exact (Function.iterate_succ_apply' rotateRight1 n v).symm.trans (iterate_rotateRight1_width v)

theorem rotateRight1_zero (W : Nat) : rotateRight1 (0 : Word W) = 0 :=
  BitVec.eq_of_getLsbD_eq fun i hi => by simp [getLsbD_rotateRight1_mod _ hi]

theorem rotateRight1_allOnes (W : Nat) : rotateRight1 (BitVec.allOnes W) = BitVec.allOnes W :=
  BitVec.eq_of_getLsbD_eq fun i hi => by
    simp [getLsbD_rotateRight1_mod _ hi, hi, Nat.mod_lt (i + 1) (show 0 < W by omega)]

/-- Settles O39: the bits by `getLsbD_rotateRight1_mod`, the bijection from the `W` rotates that are the identity. -/
theorem rotateLaws : Obligations.RotateLaws := by
  intro c v
  have hW : 0 < c.W := Nat.lt_of_lt_of_le Nat.zero_lt_two c.two_le
  refine ⟨?_, fun i hi => ?_, popCount_rotateRight1 v, iterate_rotateRight1_width v, rotateRight1_bijective hW,
    rotateRight1_zero c.W, rotateRight1_allOnes c.W⟩
  · rw [getLsbD_rotateRight1_mod v (by omega), Nat.sub_add_cancel hW, Nat.mod_self]
  · rw [getLsbD_rotateRight1_mod v (by omega), Nat.mod_eq_of_lt (by omega)]

end Sys2Proof.Machine
end

section
/-! PROOFS. The command `CONSTRUCT` (spec 41_construct.md): its two checks, the state it leaves, and the runs that begin with it. -/

namespace Sys2Proof.Machine

/-! ## The three outcomes -/

/-- A `CONSTRUCT` of the block's width fails on its seed, or else on its taps, or else is accepted (R100, R105). -/
theorem exec_construct_cases (s : State) (seed tapsIn : Word s.cfg.W) :
    (seed = 0 ∧ exec (.construct s.cfg.W seed tapsIn) s = .next { s with response := some (.err .seedIsZero) }) ∨
    (seed ≠ 0 ∧ tapsIn.getLsbD (s.cfg.W - 1) = false ∧
      exec (.construct s.cfg.W seed tapsIn) s = .next { s with response := some (.err .tapsMustHaveMsbSet) }) ∨
    (seed ≠ 0 ∧ tapsIn.getLsbD (s.cfg.W - 1) = true ∧
      exec (.construct s.cfg.W seed tapsIn) s = .next { s with
        slot := .holds (lfsrStep seed (normaliseTaps tapsIn)) (normaliseTaps tapsIn), response := some .ok }) := by
  obtain ⟨c, sl, po, r⟩ := s
  rw [exec_construct_sameWidth]
  by_cases hseed : seed = 0
  · exact .inl ⟨hseed, congrArg _ (constructWith_zeroSeed hseed)⟩
  · cases hmsb : tapsIn.getLsbD (c.W - 1) with
    | false => exact .inr (.inl ⟨hseed, rfl, congrArg _ (constructWith_noMsb hseed hmsb)⟩)
    | true => exact .inr (.inr ⟨hseed, rfl, congrArg _ (constructWith_accepted hseed hmsb)⟩)

/-- Settles O14, outcome by outcome: only the one with a zero seed responds `SeedIsZero`. -/
theorem constructRejectsZeroSeed : Obligations.ConstructRejectsZeroSeed := by
  intro s seed tapsIn
  obtain ⟨hseed, hexec⟩ | ⟨hseed, -, hexec⟩ | ⟨hseed, -, hexec⟩ := exec_construct_cases s seed tapsIn
  · exact ⟨fun _ => hexec, fun hne => absurd hseed hne⟩
  · exact ⟨fun hzero => absurd hzero hseed, fun _ => by simp [hexec]⟩
  · exact ⟨fun hzero => absurd hzero hseed, fun _ => by simp [hexec]⟩

/-- The top bit of a word as a bound on its value (R11). -/
theorem getLsbD_top_iff {W : Nat} (v : Word W) : v.getLsbD (W - 1) = true ↔ 2 ^ (W - 1) ≤ v.toNat := by
  rw [← BitVec.msb_eq_getLsbD_last, BitVec.msb_eq_decide, decide_eq_true_iff]

/-- Settles O15: the failing outcome has the top bit clear, and a value of at least `2^(W-1)` has it set. -/
theorem constructRejectsTapsWithoutMsb : Obligations.ConstructRejectsTapsWithoutMsb := by
  intro s seed tapsIn hne
  rw [← getLsbD_top_iff]
  refine ⟨normaliseTaps_bit_zero tapsIn, ?_⟩
  obtain ⟨hseed, -⟩ | ⟨-, hmsb, hexec⟩ | ⟨-, hmsb, hexec⟩ := exec_construct_cases s seed tapsIn
  · exact absurd hseed hne
  · exact ⟨fun _ => hexec, by simp [hmsb]⟩
  · exact ⟨by simp [hmsb], fun _ => by simp [hexec]⟩

/-! ## The state after construction -/

theorem width_pos (c : Config) : 0 < c.W := Nat.lt_of_lt_of_le Nat.zero_lt_two c.two_le

section
variable {W : Nat}

/-- The feedback bit enters at the top (R125). -/
theorem getLsbD_lfsrStep_top (s t : Word W) (hW : 0 < W) : (lfsrStep s t).getLsbD (W - 1) = parity (s &&& t) := by
  rw [getLsbD_lfsrStep, decide_eq_true (by omega), if_pos rfl, Bool.true_and, feedbackBit, bitAnd_eq]

/-- Below the top the step shifts right by one (R125). -/
theorem getLsbD_lfsrStep_low (s t : Word W) {i : Nat} (hi : i < W - 1) :
    (lfsrStep s t).getLsbD i = s.getLsbD (i + 1) := by
  rw [getLsbD_lfsrStep, decide_eq_true (by omega), if_neg (by omega), Bool.true_and]

theorem toNat_one_shiftLeft_top (hW : 0 < W) : (1#W <<< (W - 1)).toNat = 2 ^ (W - 1) :=
  BitVec.toNat_twoPow_of_lt (by omega)

theorem getLsbD_one_shiftLeft_top (hW : 0 < W) : (1#W <<< (W - 1)).getLsbD (W - 1) = true :=
  (getLsbD_top_iff _).2 (toNat_one_shiftLeft_top hW).ge

/-- The only set bit of the seed 1 is tapped, and the step moves it to the top (R109). -/
theorem lfsrStep_one {t : Word W} (hW : 0 < W) (ht : t.getLsbD 0 = true) : lfsrStep 1#W t = 1#W <<< (W - 1) := by
  have hfeedback : feedbackBit 1#W t = true := by
    rw [feedbackBit_of_high_clear hW fun i hi => by simp [hi.ne'], ht]
    simp [hW]
  refine BitVec.eq_of_getLsbD_eq fun i hi => ?_
  by_cases htop : i = W - 1
  · rw [htop, getLsbD_one_shiftLeft_top hW, getLsbD_lfsrStep, hfeedback]
    simp [hW]
  · rw [getLsbD_lfsrStep_low _ _ (by omega)]
    simp [show i < W - 1 by omega]

theorem normaliseTaps_one_shiftLeft_top (W : Nat) : normaliseTaps (1#W <<< (W - 1)) = 1#W := by
  rw [normaliseTaps, ← bitReverse_one, bitReverse_bitReverse]

theorem oneWord_ne_zero (hW : 0 < W) : 1#W ≠ 0 := mt BitVec.one_eq_zero_iff.1 hW.ne'

end

/-- With seed 1 every accepted tap value leaves the state `1 << (W-1)` (R109). -/
theorem exec_construct_one (s : State) {tapsIn : Word s.cfg.W} (hmsb : tapsIn.getLsbD (s.cfg.W - 1) = true) :
    exec (.construct s.cfg.W 1#s.cfg.W tapsIn) s =
      .next { s with slot := .holds (1#s.cfg.W <<< (s.cfg.W - 1)) (normaliseTaps tapsIn), response := some .ok } := by
  have hW := width_pos s.cfg
  have hbit : (normaliseTaps tapsIn).getLsbD 0 = true := (normaliseTaps_bit_zero tapsIn).trans hmsb
  rw [← lfsrStep_one hW hbit]
  exact constructStoresTheSteppedSeed s 1#s.cfg.W tapsIn (oneWord_ne_zero hW) hmsb

/-- A `CONSTRUCT` that responds `Ok` has the top bit of its taps set (R103). -/
theorem top_bit_of_exec_construct_ok {s t : State} {seed tapsIn : Word s.cfg.W}
    (h : exec (.construct s.cfg.W seed tapsIn) s = .next t) (hok : t.response = some .ok) :
    tapsIn.getLsbD (s.cfg.W - 1) = true := by
  obtain ⟨-, hexec⟩ | ⟨-, -, hexec⟩ | ⟨-, hmsb, -⟩ := exec_construct_cases s seed tapsIn
  · rw [hexec] at h; cases h; cases hok
  · rw [hexec] at h; cases h; cases hok
  · exact hmsb

/-- Settles O47, its four parts in order. -/
theorem postConstructionState : Obligations.PostConstructionState := by
  intro s seed tapsIn
  have hW := width_pos s.cfg
  refine ⟨fun haccepted => ?_, exec_construct_one s, ?_, fun t h hok => ?_⟩
  · obtain ⟨hseed, hmsb⟩ := (accepted_iff seed tapsIn).1 haccepted
    exact ⟨_, constructStoresTheSteppedSeed s seed tapsIn hseed hmsb, getLsbD_lfsrStep_top _ _ hW,
      fun i hi => getLsbD_lfsrStep_low _ _ hi⟩
  · rw [exec_construct_one s (getLsbD_one_shiftLeft_top hW), normaliseTaps_one_shiftLeft_top]
  · rw [toNat_one_shiftLeft_top hW]
    exact (getLsbD_top_iff tapsIn).1 (top_bit_of_exec_construct_ok h hok)

/-! ## Runs that begin with an accepted CONSTRUCT -/

/-- The steps of an orbit, counted from its second value. -/
theorem stepPow_lfsrStep {W : Nat} (t x : Word W) (k : Nat) : stepPow t k (lfsrStep x t) = stepPow t (k + 1) x :=
  (stepPow_add t x k 1).symm

section
variable {c : Config} {po : List (Pins c.W)} {x t : Word c.W}

/-- The old instance and the old response have no part in what an accepted `CONSTRUCT` leaves (R104, R107). -/
theorem step_construct_accepted (sl : Slot c.W) (r : Option (Response c.W)) {seed tapsIn : Word c.W}
    (h : accepted seed tapsIn = true) :
    step ⟨c, sl, Pins.construct seed tapsIn :: po, r⟩ =
      .next ⟨c, .holds (lfsrStep seed (normaliseTaps tapsIn)) (normaliseTaps tapsIn), po, some .ok⟩ := by
  obtain ⟨hseed, hmsb⟩ := (accepted_iff seed tapsIn).1 h
  exact (step_construct rfl rfl).trans (congrArg _ (constructWith_accepted hseed hmsb))

/-- A `CONSTRUCT` that is not accepted keeps the slot (R106). -/
theorem constructWith_rejected (sl : Slot c.W) (r : Option (Response c.W)) {seed tapsIn : Word c.W}
    (h : accepted seed tapsIn = false) : ∃ r', constructWith ⟨c, sl, po, r⟩ seed tapsIn = ⟨c, sl, po, r'⟩ := by
  by_cases hseed : seed = 0
  · exact ⟨_, constructWith_zeroSeed hseed⟩
  · cases hmsb : tapsIn.getLsbD (c.W - 1) with
    | false => exact ⟨_, constructWith_noMsb hseed hmsb⟩
    | true => simp [(accepted_iff seed tapsIn).2 ⟨hseed, hmsb⟩] at h

/-- The three kinds of cycle that keep an instance: an `IDLE`, a `CONSTRUCT` that is not accepted, and a `NEXT`. -/
theorem keepsInstance_cases {p : Pins c.W} (h : p.keepsInstance = true) :
    p.rst = false ∧ (p.op = 0b00#2 ∨ (p.op = 0b01#2 ∧ accepted p.seed p.tapsIn = false) ∨ p.op = 0b10#2) := by
  cases hrst : p.rst with
  | true => simp [Pins.keepsInstance, hrst] at h
  | false =>
    obtain hop | hop | hop | hop := bitVec2_cases p.op
    · exact ⟨rfl, .inl hop⟩
    · have hrejected : accepted p.seed p.tapsIn = false := by
        simpa [Pins.keepsInstance, Pins.allowed, Pins.constructs, hrst, hop] using h
      exact ⟨rfl, .inr (.inl ⟨hop, hrejected⟩)⟩
    · exact ⟨rfl, .inr (.inr hop)⟩
    · simp [Pins.keepsInstance, Pins.allowed, hrst, hop] at h

theorem countNext_cons {W : Nat} (p : Pins W) (ps : List (Pins W)) :
    countNext (p :: ps) = countNext ps + countNext [p] :=
  (List.countP_append (l₁ := [p])).trans (Nat.add_comm _ _)

theorem countNext_singleton_of_next {W : Nat} {p : Pins W} (hrst : p.rst = false) (hop : p.op = 0b10#2) :
    countNext [p] = 1 := by
  simp [countNext, Pins.isNext, hrst, hop]

theorem countNext_singleton_of_not_next {W : Nat} {p : Pins W} (hop : p.op ≠ 0b10#2) : countNext [p] = 0 := by
  simp [countNext, Pins.isNext, hop]

/-- Of the cycles that keep an instance only a `NEXT` steps it (R106, R141, R160). -/
theorem step_keepsInstance {p : Pins c.W} (h : p.keepsInstance = true) (r : Option (Response c.W)) :
    ∃ r', step ⟨c, .holds x t, p :: po, r⟩ = .next ⟨c, .holds (stepPow t (countNext [p]) x) t, po, r'⟩ := by
  obtain ⟨hrst, hop | ⟨hop, hrejected⟩ | hop⟩ := keepsInstance_cases h
  · rw [countNext_singleton_of_not_next (by simp [hop])]
    exact ⟨_, step_idle hrst hop⟩
  · rw [countNext_singleton_of_not_next (by simp [hop])]
    obtain ⟨r', hkept⟩ := constructWith_rejected (po := po) (.holds x t) r hrejected
    exact ⟨r', (step_construct hrst hop).trans (congrArg _ hkept)⟩
  · rw [countNext_singleton_of_next hrst hop]
    exact ⟨_, (step_next hrst hop).trans (exec_next_holds c x t po r)⟩

/-- A run of cycles that keep the instance advances it once for each `NEXT` among them (R143). -/
theorem steps_keepsInstance {ps : List (Pins c.W)} (h : ∀ p ∈ ps, p.keepsInstance = true) (r : Option (Response c.W)) :
    ∃ r', steps ps.length ⟨c, .holds x t, ps ++ po, r⟩ = .next ⟨c, .holds (stepPow t (countNext ps) x) t, po, r'⟩ := by
  induction ps generalizing x r with
  | nil => exact ⟨r, rfl⟩
  | cons p ps ih =>
    obtain ⟨hp, hps⟩ := List.forall_mem_cons.1 h
    obtain ⟨r₁, hfirst⟩ := step_keepsInstance (po := ps ++ po) (x := x) (t := t) hp r
    obtain ⟨r₂, hrest⟩ := ih hps r₁
    refine ⟨r₂, ?_⟩
    rw [countNext_cons, stepPow_add, ← hrest]
    exact steps_succ hfirst

/-- `k` `NEXT`s respond the first `k` values of the orbit of `x`, itself the first, and leave the value after them (R143). -/
theorem runFrom_nexts (k : Nat) (r : Response c.W) :
    ∃ r', runFrom k ⟨c, .holds x t, List.replicate k (Pins.next c.W) ++ po, some r⟩ =
      .next ⟨(List.range k).map fun j => ⟨c.W, .value (stepPow t j x)⟩,
        ⟨c, .holds (stepPow t k x) t, po, some r'⟩⟩ := by
  induction k generalizing x r with
  | zero => exact ⟨r, rfl⟩
  | succ k ih =>
    obtain ⟨r', hrest⟩ := ih (x := lfsrStep x t) (.value x)
    refine ⟨r', ?_⟩
    rw [List.replicate_succ, List.cons_append, runFrom_succ (step_next_holds c x t _ _), hrest, List.range_succ_eq_map]
    simp [prependAnswers, stepPow_lfsrStep, Function.comp_def]

end

/-- Settles O31: the first step leads both runs to the same state. -/
theorem constructForgetsTheOldInstance : Obligations.ConstructForgetsTheOldInstance := by
  rintro ⟨c, sl, po, r⟩ a b seed tapsIn ps n haccepted
  have hfirst := fun old : Slot c.W => step_construct_accepted (po := ps ++ po) old r haccepted
  exact (steps_succ (hfirst a)).trans (steps_succ (hfirst b)).symm

/-- Settles O34: the accepted `CONSTRUCT`, then the cycles `ps` by `steps_keepsInstance`, then the `NEXT`. -/
theorem outputSequence : Obligations.OutputSequence := by
  rintro ⟨c, sl, po, r⟩ seed tapsIn ps haccepted hps
  obtain ⟨r', hkept⟩ := steps_keepsInstance (po := Pins.next c.W :: po) (x := lfsrStep seed (normaliseTaps tapsIn))
    (t := normaliseTaps tapsIn) hps (some .ok)
  rw [stepPow_lfsrStep] at hkept
  rw [present_mk, List.cons_append, List.append_assoc, List.singleton_append]
  calc steps (ps.length + 2) ⟨c, sl, Pins.construct seed tapsIn :: (ps ++ Pins.next c.W :: po), r⟩
    _ = steps (ps.length + 1) _ := steps_succ (step_construct_accepted sl r haccepted)
    _ = steps 1 _ := steps_add hkept
    _ = step _ := steps_one _
    _ = _ := step_next_holds c _ _ po r'

/-- Settles O58: the response `Ok`, then those of `runFrom_nexts` from the stepped seed on. -/
theorem responsesOfASequence : Obligations.ResponsesOfASequence := by
  rintro ⟨c, sl, po, r⟩ seed tapsIn k haccepted
  obtain ⟨r', hnexts⟩ := runFrom_nexts (po := po) (x := lfsrStep seed (normaliseTaps tapsIn))
    (t := normaliseTaps tapsIn) k .ok
  simp only [stepPow_lfsrStep] at hnexts
  refine ⟨r', ?_⟩
  rw [present_mk, List.cons_append, runFrom_succ (step_construct_accepted sl r haccepted), hnexts]
  rfl

end Sys2Proof.Machine
end

section
/-! PROOFS. The step function (spec 42_step.md): its closed form, its fixed point and linearity, its inverse, the mask 1, and the
one bit sequence that the states are windows of. -/

namespace Sys2Proof.Machine

/-! ## The feedback bit -/

section
variable {W : Nat}

theorem feedbackBit_comm (s t : Word W) : feedbackBit s t = feedbackBit t s := by
  rw [feedbackBit, feedbackBit, bitAnd_eq, bitAnd_eq, BitVec.and_comm]

/-- The feedback is linear over the XOR of R83 (R128). -/
theorem feedbackBit_bitXor (a b t : Word W) : feedbackBit (bitXor a b) t = (feedbackBit a t ^^ feedbackBit b t) := by
  rw [feedbackBit_eq_xorBelow, feedbackBit_eq_xorBelow, feedbackBit_eq_xorBelow, ← xorBelow_xor]
  exact xorBelow_congr fun i _ => by rw [bitXor_eq, BitVec.getLsbD_xor, Bool.and_xor_distrib_right]

/-- A bit placed at bit 0 enters the feedback exactly when bit 0 is tapped (R121). -/
theorem feedbackBit_zextBit (hW : 0 < W) (b : Bool) (t : Word W) :
    feedbackBit (zextBit W b) t = (b && t.getLsbD 0) := by
  rw [feedbackBit_of_high_clear hW fun i hi => by simp [hi.ne']]
  simp [hW]

theorem zextBit_true (W : Nat) : zextBit W true = 1#W :=
  BitVec.eq_of_getLsbD_eq fun i hi => by simp [hi]

/-- The constant 1 reads bit 0 of the mask (R121). -/
theorem feedbackBit_one (hW : 0 < W) (t : Word W) : feedbackBit 1#W t = t.getLsbD 0 := by
  rw [← zextBit_true, feedbackBit_zextBit hW, Bool.true_and]

end

/-- Settles O41: the mask's bits are those of `tapsIn` from the top down, and flipping `state[0]` adds the feedback of the
constant 1, which is `tapsIn[W-1]`. -/
theorem tappedBitsInTheHostsTerms : Obligations.TappedBitsInTheHostsTerms := by
  intro c s tapsIn
  constructor
  · rw [feedbackBit_eq_xorBelow]
    exact xorBelow_congr fun i hi => by rw [normaliseTaps, getLsbD_bitReverse_of_lt tapsIn hi, Bool.and_comm]
  · intro hmsb
    rw [← bitXor_eq, feedbackBit_bitXor, feedbackBit_one (width_pos c), normaliseTaps_bit_zero, hmsb, Bool.xor_true]

/-! ## The closed form, linearity and the fixed point -/

section
variable {W : Nat}

/-- The feedback bit enters at the top (R120). -/
theorem getLsbD_lfsrStep_top_eq_feedbackBit (hW : 0 < W) (s t : Word W) :
    (lfsrStep s t).getLsbD (W - 1) = feedbackBit s t :=
  getLsbD_lfsrStep_top s t hW

/-- A word is the next state exactly when its top bit is the feedback and every other bit is the one above it in `s` (R125). -/
theorem lfsrStep_eq_iff (hW : 0 < W) {s t n : Word W} :
    lfsrStep s t = n ↔ feedbackBit s t = n.getLsbD (W - 1) ∧ ∀ i, i < W - 1 → s.getLsbD (i + 1) = n.getLsbD i := by
  constructor
  · rintro rfl
    exact ⟨(getLsbD_lfsrStep_top_eq_feedbackBit hW s t).symm, fun i hi => (getLsbD_lfsrStep_low s t hi).symm⟩
  · rintro ⟨htop, hlow⟩
    refine BitVec.eq_of_getLsbD_eq fun i hi => ?_
    obtain rfl | hne := eq_or_ne i (W - 1)
    · exact (getLsbD_lfsrStep_top_eq_feedbackBit hW s t).trans htop
    · exact (getLsbD_lfsrStep_low s t (by omega)).trans (hlow i (by omega))

end

/-- Settles O40: the bits are those of `lfsrStep_eq_iff`, and the closed expression has the same bits. -/
theorem stepClosedForm : Obligations.StepClosedForm := by
  intro c s t
  have hW := width_pos c
  refine ⟨getLsbD_lfsrStep_top s t hW, fun _ => getLsbD_lfsrStep_low s t,
    (lfsrStep_eq_iff hW).2 ⟨?_, fun i hi => ?_⟩⟩
  · simp [feedbackBit, hW, show 1 + (c.W - 1) = c.W by omega]
  · simp [hi, Nat.add_comm]

/-- Settles O44: the top bit by the linearity of the feedback, the others bit by bit. -/
theorem stepIsLinear : Obligations.StepIsLinear := by
  intro W a b t
  obtain rfl | hW := Nat.eq_zero_or_pos W
  · exact BitVec.eq_of_zero_length rfl
  refine (lfsrStep_eq_iff hW).2 ⟨?_, fun i hi => ?_⟩
  · rw [feedbackBit_bitXor, bitXor_eq, BitVec.getLsbD_xor, getLsbD_lfsrStep_top_eq_feedbackBit hW,
      getLsbD_lfsrStep_top_eq_feedbackBit hW]
  · rw [bitXor_eq, bitXor_eq, BitVec.getLsbD_xor, BitVec.getLsbD_xor, getLsbD_lfsrStep_low a t hi, getLsbD_lfsrStep_low b t hi]

/-- Settles O42, from linearity: a step from `0 ^ 0` is a value XORed with itself. -/
theorem zeroIsAFixedPoint : Obligations.ZeroIsAFixedPoint := fun W t =>
  calc lfsrStep 0 t
    _ = lfsrStep (bitXor 0 0) t := congrArg (lfsrStep · t) BitVec.xor_self.symm
    _ = bitXor (lfsrStep 0 t) (lfsrStep 0 t) := stepIsLinear W 0 0 t
    _ = 0 := BitVec.xor_self

/-! ## The inverse -/

section
variable {W : Nat}

/-- Above bit 0 the inverse shifts back to the left (R127). -/
theorem getLsbD_lfsrUnstep_succ (n t : Word W) {i : Nat} (hi : i < W - 1) :
    (lfsrUnstep n t).getLsbD (i + 1) = n.getLsbD i := by
  simp [lfsrUnstep, show i + 1 < W by omega, BitVec.getLsbD_eq_getElem (show i < W by omega)]

/-- The inverse fills the bit that the shift leaves clear, so its OR is an XOR (R127). -/
theorem lfsrUnstep_eq_bitXor (n t : Word W) :
    lfsrUnstep n t = bitXor (n <<< 1) (zextBit W (n.getLsbD (W - 1) ^^ feedbackBit (n <<< 1) t)) := by
  refine BitVec.eq_of_getLsbD_eq fun i hi => ?_
  obtain rfl | hpos := Nat.eq_zero_or_pos i
  · simp [lfsrUnstep, feedbackBit, hi]
  · simp [lfsrUnstep, feedbackBit, hpos.ne']

variable {t : Word W}

/-- The bit that the inverse puts at bit 0 makes the feedback the top bit of `n` (R127). -/
theorem feedbackBit_lfsrUnstep (hW : 0 < W) (ht : t.getLsbD 0 = true) (n : Word W) :
    feedbackBit (lfsrUnstep n t) t = n.getLsbD (W - 1) := by
  rw [lfsrUnstep_eq_bitXor, feedbackBit_bitXor, feedbackBit_zextBit hW, ht, Bool.and_true, Bool.xor_left_comm, Bool.xor_self,
    Bool.xor_false]

theorem lfsrStep_lfsrUnstep (hW : 0 < W) (ht : t.getLsbD 0 = true) (n : Word W) : lfsrStep (lfsrUnstep n t) t = n :=
  (lfsrStep_eq_iff hW).2 ⟨feedbackBit_lfsrUnstep hW ht n, fun _ => getLsbD_lfsrUnstep_succ n t⟩

/-- Every word has a predecessor, and there are finitely many words (R127). -/
theorem lfsrStep_bijective (hW : 0 < W) (ht : t.getLsbD 0 = true) : Function.Bijective fun s => lfsrStep s t :=
  Function.Surjective.bijective_of_finite fun n => ⟨lfsrUnstep n t, lfsrStep_lfsrUnstep hW ht n⟩

theorem lfsrUnstep_lfsrStep (hW : 0 < W) (ht : t.getLsbD 0 = true) (s : Word W) : lfsrUnstep (lfsrStep s t) t = s :=
  (lfsrStep_bijective hW ht).injective (lfsrStep_lfsrUnstep hW ht (lfsrStep s t))

/-- With bit 0 not tapped, the value 1 steps to zero: the step loses its only set bit (R127). -/
theorem lfsrStep_one_of_untapped (hW : 0 < W) (ht : t.getLsbD 0 = false) : lfsrStep 1#W t = 0 := by
  refine (lfsrStep_eq_iff hW).2 ⟨?_, fun i _ => ?_⟩
  · exact (feedbackBit_one hW t).trans (ht.trans BitVec.getLsbD_zero.symm)
  · simp

end

/-- Settles O43: the inverse of R127 on both sides; without bit 0 tapped, flipping it adds the step of 1, which is zero. -/
theorem stepIsABijection : Obligations.StepIsABijection := by
  intro c t
  have hW := width_pos c
  refine ⟨fun ht => ⟨lfsrStep_bijective hW ht, fun s => ⟨lfsrUnstep_lfsrStep hW ht s, lfsrStep_lfsrUnstep hW ht s⟩⟩,
    fun ht s => ?_⟩
  calc lfsrStep (s ^^^ 1#c.W) t
    _ = bitXor (lfsrStep s t) (lfsrStep 1#c.W t) := stepIsLinear c.W s 1#c.W t
    _ = bitXor (lfsrStep s t) 0 := by rw [lfsrStep_one_of_untapped hW ht]
    _ = lfsrStep s t := BitVec.xor_zero

/-- The predecessor of a nonzero value is nonzero, since zero steps to zero (R126, R127). -/
theorem lfsrUnstep_ne_zero {W : Nat} {v t : Word W} (hW : 0 < W) (ht : t.getLsbD 0 = true) (hv : v ≠ 0) :
    lfsrUnstep v t ≠ 0 := by
  intro hzero
  refine hv ?_
  rw [← lfsrStep_lfsrUnstep hW ht v, hzero, zeroIsAFixedPoint]

/-- Settles O48: the predecessor is an accepted seed, and `CONSTRUCT` steps it to `v`. -/
theorem anyValueCanComeNext : Obligations.AnyValueCanComeNext := by
  intro s v tapsIn hv hmsb
  have hW := width_pos s.cfg
  have ht : (normaliseTaps tapsIn).getLsbD 0 = true := (normaliseTaps_bit_zero tapsIn).trans hmsb
  have hexec := constructStoresTheSteppedSeed s _ tapsIn (lfsrUnstep_ne_zero hW ht hv) hmsb
  rwa [← normaliseTaps, lfsrStep_lfsrUnstep hW ht] at hexec

/-! ## The mask 1 -/

/-- The mask 1 taps bit 0 alone, so the bit that leaves at the bottom enters at the top (R129). -/
theorem lfsrStep_mask_one {W : Nat} (hW : 0 < W) (s : Word W) : lfsrStep s 1#W = rotateRight1 s := by
  refine (lfsrStep_eq_iff hW).2 ⟨?_, fun i hi => ?_⟩
  · rw [feedbackBit_comm, feedbackBit_one hW, getLsbD_rotateRight1_mod s (by omega), Nat.sub_add_cancel hW, Nat.mod_self]
  · rw [getLsbD_rotateRight1_mod s (by omega), Nat.mod_eq_of_lt (by omega)]

theorem stepPow_mask_one {W : Nat} (hW : 0 < W) (s : Word W) (k : Nat) : stepPow 1#W k s = rotateRight1^[k] s := by
  induction k with
  | zero => rfl
  | succ k ih => rw [stepPow_succ, ih, lfsrStep_mask_one hW, Function.iterate_succ_apply']

/-- Settles O45: the steps are rotates, and `W` rotates are the identity. -/
theorem maskOneRotates : Obligations.MaskOneRotates := by
  intro c s
  have hW := width_pos c
  exact ⟨lfsrStep_mask_one hW s, (stepPow_mask_one hW s c.W).trans (iterate_rotateRight1_width s)⟩

/-! ## The bit sequence behind the states -/

/-- The sequence of R130: the bits that leave the register at bit 0, one per step. -/
def lowBit {W : Nat} (t s : Word W) (n : Nat) : Bool := (stepPow t n s).getLsbD 0

section
variable {W : Nat}

/-- Bit `i` of a state reaches bit 0 after `i` steps (R130). -/
theorem lowBit_add (t s : Word W) (k : Nat) {i : Nat} (hi : i < W) : lowBit t s (k + i) = (stepPow t k s).getLsbD i := by
  induction i generalizing k with
  | zero => rfl
  | succ i ih =>
    rw [← Nat.add_assoc, Nat.add_right_comm, ih (k + 1) (by omega), stepPow_succ, getLsbD_lfsrStep_low _ _ (by omega)]

/-- The bit that enters at the top is the XOR of the tapped bits, as R130 writes it. -/
theorem getLsbD_lfsrStep_top_eq_xorBelow (hW : 0 < W) (s t : Word W) :
    (lfsrStep s t).getLsbD (W - 1) = xorBelow (fun i => t.getLsbD i && s.getLsbD i) W := by
  rw [getLsbD_lfsrStep_top_eq_feedbackBit hW, feedbackBit_comm, feedbackBit_eq_xorBelow]

/-- The bit that enters at the top in step `n` leaves `W` places later, and it is the fold of the tapped bits (R130). -/
theorem lowBit_recurrence (hW : 0 < W) (t s : Word W) (n : Nat) :
    lowBit t s (n + W) = xorBelow (fun i => t.getLsbD i && lowBit t s (n + i)) W :=
  calc lowBit t s (n + W)
    _ = lowBit t s (n + 1 + (W - 1)) := by rw [Nat.add_assoc, Nat.add_sub_cancel' hW]
    _ = (lfsrStep (stepPow t n s) t).getLsbD (W - 1) := lowBit_add t s (n + 1) (by omega)
    _ = xorBelow (fun i => t.getLsbD i && (stepPow t n s).getLsbD i) W := getLsbD_lfsrStep_top_eq_xorBelow hW _ _
    _ = _ := xorBelow_congr fun i hi => by rw [lowBit_add t s n hi]

/-- The states are windows over every sequence with the start and the recurrence of R130, by induction on the steps. -/
theorem getLsbD_stepPow_of_recurrence {s t : Word W} {u : Nat → Bool} (hstart : ∀ i, i < W → u i = s.getLsbD i)
    (hrec : ∀ n, u (n + W) = xorBelow (fun i => t.getLsbD i && u (n + i)) W) (k : Nat) {i : Nat} (hi : i < W) :
    (stepPow t k s).getLsbD i = u (k + i) := by
  induction k generalizing i with
  | zero => rw [stepPow_zero, Nat.zero_add, hstart i hi]
  | succ k ih =>
    rw [stepPow_succ]
    obtain rfl | hne := eq_or_ne i (W - 1)
    · calc (lfsrStep (stepPow t k s) t).getLsbD (W - 1)
        _ = xorBelow (fun i => t.getLsbD i && (stepPow t k s).getLsbD i) W :=
          getLsbD_lfsrStep_top_eq_xorBelow (by omega) _ _
        _ = xorBelow (fun i => t.getLsbD i && u (k + i)) W := xorBelow_congr fun i hi => by rw [ih hi]
        _ = u (k + W) := (hrec k).symm
        _ = u (k + 1 + (W - 1)) := by rw [Nat.add_assoc, Nat.add_sub_cancel' (by omega)]
    · rw [getLsbD_lfsrStep_low _ _ (by omega), ih (by omega), Nat.add_right_comm, Nat.add_assoc]

end

/-- Settles O46: `lowBit` is such a sequence, and the window property leaves no other. -/
theorem statesAreASlidingWindow : Obligations.StatesAreASlidingWindow := by
  intro c s t
  have hW := width_pos c
  refine ⟨⟨lowBit t s, ⟨fun i hi => ?_, lowBit_recurrence hW t s⟩, ?_⟩,
    fun u hstart hrec k i => getLsbD_stepPow_of_recurrence hstart hrec k⟩
  · rw [← Nat.zero_add i, lowBit_add t s 0 (by omega), stepPow_zero, Nat.zero_add]
  · rintro u ⟨hstart, hrec⟩
    exact funext fun n => (getLsbD_stepPow_of_recurrence hstart hrec n hW).symm

end Sys2Proof.Machine
end

section
/-! PROOFS. The command `NEXT` (spec 43_next.md): its two outcomes, the runs from reset before the first accepted `CONSTRUCT`, and
no value 0 in any run. -/

namespace Sys2Proof.Machine

/-! ## The two outcomes -/

/-- Settles O18, by the outcome of `NEXT` on a block that holds an instance. -/
theorem nextReturnsThenSteps : Obligations.NextReturnsThenSteps := by
  rintro ⟨c, _ | ⟨x, t⟩, po, r⟩ _ _ ⟨⟩
  exact exec_next_holds c x t po r

/-- Settles O19, by the outcome of `NEXT` on an empty block. -/
theorem nextWithoutInstance : Obligations.NextWithoutInstance := by
  rintro ⟨c, _ | ⟨x, t⟩, po, r⟩ ⟨⟩
  exact exec_next_empty c po r

/-! ## Before the first accepted CONSTRUCT -/

section
variable {c : Config} {po : List (Pins c.W)}

/-- Without an instance, a cycle that may be presented and is no accepted `CONSTRUCT` leaves the block without one: it is a reset
cycle, or one of the kinds that keep the slot (R214). -/
theorem step_empty {p : Pins c.W} (hallowed : p.allowed = true) (hconstructs : p.constructs = false)
    (r : Option (Response c.W)) : ∃ r', step ⟨c, .empty, p :: po, r⟩ = .next ⟨c, .empty, po, r'⟩ := by
  cases hrst : p.rst with
  | true => exact ⟨none, step_reset hrst⟩
  | false =>
    have hkeeps : p.keepsInstance = true := by simp [Pins.keepsInstance, hrst, hallowed, hconstructs]
    obtain ⟨-, hop | ⟨hop, hrejected⟩ | hop⟩ := keepsInstance_cases hkeeps
    · exact ⟨_, step_idle hrst hop⟩
    · obtain ⟨r', hkept⟩ := constructWith_rejected (po := po) .empty r hrejected
      exact ⟨r', (step_construct hrst hop).trans (congrArg _ hkept)⟩
    · exact ⟨_, (step_next hrst hop).trans (exec_next_empty c po r)⟩

/-- A run of such cycles leaves the block without an instance (R214). -/
theorem steps_empty {ps : List (Pins c.W)} (h : ∀ p ∈ ps, p.allowed = true ∧ p.constructs = false)
    (r : Option (Response c.W)) : ∃ r', steps ps.length ⟨c, .empty, ps ++ po, r⟩ = .next ⟨c, .empty, po, r'⟩ := by
  induction ps generalizing r with
  | nil => exact ⟨r, rfl⟩
  | cons p ps ih =>
    obtain ⟨⟨hallowed, hconstructs⟩, hps⟩ := List.forall_mem_cons.1 h
    obtain ⟨r₁, hfirst⟩ := step_empty (po := ps ++ po) hallowed hconstructs r
    obtain ⟨r₂, hrest⟩ := ih hps r₁
    exact ⟨r₂, (steps_succ hfirst).trans hrest⟩

/-- A `NEXT` cycle without an instance responds `NotConstructed` (R142). -/
theorem step_next_empty (r : Option (Response c.W)) :
    step ⟨c, .empty, Pins.next c.W :: po, r⟩ = .next ⟨c, .empty, po, some (.err .notConstructed)⟩ :=
  (step_next rfl rfl).trans (exec_next_empty c po r)

end

/-- Settles O33: `steps_empty` from the reset state, and then the `NEXT`. -/
theorem beforeTheFirstConstruct : Obligations.BeforeTheFirstConstruct := by
  intro c ps hps
  refine ⟨steps_empty hps none, ?_⟩
  obtain ⟨r', hbefore⟩ := steps_empty (po := [Pins.next c.W]) hps none
  calc steps (ps.length + 1) ((State.resetOf c).present (ps ++ [Pins.next c.W]))
    _ = steps (ps.length + 1) ⟨c, .empty, ps ++ [Pins.next c.W], none⟩ := by simp [State.resetOf, present_mk]
    _ = steps 1 ⟨c, .empty, [Pins.next c.W], r'⟩ := steps_add hbefore
    _ = step ⟨c, .empty, [Pins.next c.W], r'⟩ := steps_one _
    _ = .next ⟨c, .empty, [], some (.err .notConstructed)⟩ := step_next_empty r'

/-! ## No value 0 -/

/-- What every step keeps is kept by a run. -/
theorem steps_keep {P : State → Prop} (hkeep : ∀ s t, P s → step s = .next t → P t) {n : Nat} {s t : State}
    (hs : P s) (h : steps n s = .next t) : P t := by
  induction n generalizing s with
  | zero => cases h; exact hs
  | succ n ih =>
    cases hstep : step s with
    | next u =>
      rw [steps_succ hstep] at h
      exact ih (hkeep s u hs hstep) h
    | fault r => exact nomatch r
    | refused r =>
      rw [steps, hstep] at h
      cases h

/-- Only a `NEXT` responds a value, and under the invariants the value it responds is not 0 (R145). -/
theorem exec_response_ne_zero {i : Instr} {s t : State} (hinv : s.Inv) (h : exec i s = .next t) :
    t.response ≠ some (.value 0) := by
  obtain ⟨c, sl, po, r⟩ := s
  obtain ⟨-, rfl⟩ | ⟨seed, tapsIn, -, hconstruct⟩ | ⟨-, hnext⟩ := exec_cases h
  · simp
  · obtain ⟨-, rfl⟩ | ⟨-, -, rfl⟩ | ⟨-, -, rfl⟩ := hconstruct <;> simp
  · obtain ⟨-, rfl⟩ | ⟨x, m, rfl, rfl⟩ := hnext
    · simp
    · obtain ⟨hx, -⟩ := (slot_inv_holds x m).1 hinv
      simpa using hx

/-- A cycle from a state that meets the invariants does not respond the value 0; a reset cycle responds nothing. -/
theorem step_response_ne_zero {s t : State} (hinv : s.Inv) (h : step s = .next t) : t.response ≠ some (.value 0) := by
  obtain rfl | ⟨i, hi⟩ := step_cases h
  · simp
  · exact exec_response_ne_zero (s := s.takeCycle) hinv hi

/-- The invariants of R25, together with a response that is not the value 0. -/
def State.InvNonzero (s : State) : Prop := s.Inv ∧ s.response ≠ some (.value 0)

theorem step_keeps_invNonzero (s t : State) (hs : s.InvNonzero) (h : step s = .next t) : t.InvNonzero := by
  obtain ⟨hinv, -⟩ := hs
  exact ⟨invariantsAreKept s t hinv h, step_response_ne_zero hinv h⟩

theorem invNonzero_reset_present (c : Config) (ps : List (Pins c.W)) : ((State.resetOf c).present ps).InvNonzero :=
  ⟨invariantsHoldAtReset c, nofun⟩

/-- Settles O28: `InvNonzero` holds at reset, whatever is presented, and every step keeps it. -/
theorem nextNeverReturnsZero : Obligations.NextNeverReturnsZero := by
  intro c ps n t h
  obtain ⟨-, hresponse⟩ := steps_keep step_keeps_invNonzero (invNonzero_reset_present c ps) h
  exact hresponse

end Sys2Proof.Machine
end

section
/-! PROOFS. `IDLE`, several blocks, and the output sequence (spec 44_idle_and_sequence.md): idle cycles and other blocks change
nothing, the orbit of a seed is a pure cycle, and the source's tap values are maximal. -/

namespace Sys2Proof.Machine

/-! ## IDLE -/

/-- Settles O13: `IDLE` answers and writes nothing else. -/
theorem idleRespondsNone : Obligations.IdleRespondsNone := fun _ => rfl

/-- Settles O4: an empty port reads as `Pins.idle`, and there is no cycle to take off it. -/
theorem nothingPresentedIsIdle : Obligations.NothingPresentedIsIdle := by
  rintro ⟨c, sl, po, r⟩ hport
  obtain rfl : po = [] := hport
  exact step_eq ⟨c, sl, [], r⟩

/-- A run of `IDLE` cycles changes nothing but the response shown (R160, R217). -/
theorem steps_idles {c : Config} {sl : Slot c.W} {po idles : List (Pins c.W)}
    (h : ∀ q ∈ idles, q.rst = false ∧ q.op = 0b00#2) (r : Option (Response c.W)) :
    ∃ r', steps idles.length ⟨c, sl, idles ++ po, r⟩ = .next ⟨c, sl, po, r'⟩ := by
  induction idles generalizing r with
  | nil => exact ⟨r, rfl⟩
  | cons q idles ih =>
    obtain ⟨⟨hrst, hop⟩, hidles⟩ := List.forall_mem_cons.1 h
    obtain ⟨r', hrest⟩ := ih hidles (some .none)
    exact ⟨r', (steps_succ (step_idle hrst hop)).trans hrest⟩

/-- Settles O32: the idle cycles change the response alone, and no step reads it. -/
theorem idleCyclesDoNotMatter : Obligations.IdleCyclesDoNotMatter := by
  rintro ⟨c, sl, po, r⟩ idles p hidles
  obtain ⟨r', hidle⟩ := steps_idles (sl := sl) (po := p :: po) hidles r
  rw [present_append_mk]
  calc steps (idles.length + 1) ⟨c, sl, idles ++ p :: po, r⟩
    _ = steps 1 ⟨c, sl, p :: po, r'⟩ := steps_add hidle
    _ = step ⟨c, sl, p :: po, r'⟩ := steps_one _
    _ = step ⟨c, sl, p :: po, r⟩ := responseIsNeverRead ⟨c, sl, p :: po, r⟩ r'

/-! ## Several blocks -/

/-- Settles O35, by induction on the schedule: its first entry is a cycle of block `k`, or leaves that block as it is. -/
theorem blocksAreIndependent : Obligations.BlocksAreIndependent := by
  intro schedule blocks k
  induction schedule generalizing blocks with
  | nil => exact Option.map_id'.symm
  | cons j schedule ih =>
    rw [runSchedule, ih, List.getElem?_modify]
    obtain rfl | hne := eq_or_ne j k
    · rw [List.count_cons_self]
      cases blocks[j]? <;> simp [advanceN]
    · rw [List.count_cons_of_ne hne]
      simp [hne]

/-! ## The orbit of a seed -/

section
variable {W : Nat} {t seed : Word W} {P : Nat}

theorem stepPow_eq_iterate (t s : Word W) (k : Nat) : stepPow t k s = (lfsrStep · t)^[k] s := by
  induction k with
  | zero => rfl
  | succ k ih => rw [stepPow_succ, ih, Function.iterate_succ_apply']

/-- The period of R162 is Mathlib's minimal period of the step. -/
theorem isPeriod_iff : IsPeriod t seed P ↔ 0 < P ∧ Function.minimalPeriod (lfsrStep · t) seed = P := by
  unfold IsPeriod
  simp only [stepPow_eq_iterate]
  constructor
  · rintro ⟨hpos, hfix, hleast⟩
    refine ⟨hpos, (Function.IsPeriodicPt.minimalPeriod_le hpos hfix).antisymm (not_lt.1 fun hlt => ?_)⟩
    exact hleast _ (Function.IsPeriodicPt.minimalPeriod_pos hpos hfix) hlt Function.iterate_minimalPeriod
  · rintro ⟨hpos, rfl⟩
    exact ⟨hpos, Function.iterate_minimalPeriod, fun k hk hlt =>
      Function.not_isPeriodicPt_of_pos_of_lt_minimalPeriod (Nat.pos_iff_ne_zero.1 hk) hlt⟩

/-- Within a period the values are distinct (R162). -/
theorem stepPow_injOn (hP : IsPeriod t seed P) : Set.InjOn (stepPow t · seed) (Set.Iio P) := by
  obtain ⟨-, rfl⟩ := isPeriod_iff.1 hP
  simp only [stepPow_eq_iterate]
  exact Function.iterate_injOn_Iio_minimalPeriod

theorem stepPow_add_period (hP : IsPeriod t seed P) (k : Nat) : stepPow t (k + P) seed = stepPow t k seed := by
  obtain ⟨-, hfix, -⟩ := hP
  rw [stepPow_add, hfix]

variable (ht : t.getLsbD 0 = true) (hseed : seed ≠ 0)
include ht

/-- Every orbit comes back to its seed, since the step permutes a finite set (R127, R162). -/
theorem mem_periodicPts_lfsrStep (hW : 0 < W) (s : Word W) : s ∈ Function.periodicPts (lfsrStep · t) :=
  (lfsrStep_bijective hW ht).injective.mem_periodicPts s

include hseed

/-- No value of the orbit of a nonzero seed is zero (R166). -/
theorem stepPow_ne_zero (k : Nat) : stepPow t k seed ≠ 0 := by
  induction k with
  | zero => exact hseed
  | succ k ih => exact lfsrStep_ne_zero ih ht

/-- The values of the orbit as numbers. -/
theorem toNat_stepPow_mem (k : Nat) : (stepPow t k seed).toNat ∈ Finset.Ico 1 (2 ^ W) := by
  refine Finset.mem_Ico.2 ⟨Nat.pos_of_ne_zero fun hzero => ?_, BitVec.isLt _⟩
  exact stepPow_ne_zero ht hseed k (BitVec.eq_of_toNat_eq hzero)

theorem mapsTo_toNat_stepPow :
    Set.MapsTo (fun k => (stepPow t k seed).toNat) (Finset.range P) (Finset.Ico 1 (2 ^ W)) :=
  fun k _ => toNat_stepPow_mem ht hseed k

omit ht hseed in
theorem injOn_toNat_stepPow (hP : IsPeriod t seed P) :
    Set.InjOn (fun k => (stepPow t k seed).toNat) (Finset.range P) := by
  rw [Finset.coe_range]
  exact BitVec.toNat_injective.comp_injOn (stepPow_injOn hP)

/-- There are `2 ^ W - 1` nonzero words, and a period has distinct ones (R162). -/
theorem period_le (hP : IsPeriod t seed P) : P ≤ 2 ^ W - 1 := by
  simpa using Finset.card_le_card_of_injOn _ (mapsTo_toNat_stepPow ht hseed) (injOn_toNat_stepPow hP)

/-- A period of `2 ^ W - 1` values leaves no nonzero word out (R163). -/
theorem exists_stepPow_eq (hP : IsPeriod t seed (2 ^ W - 1)) {v : Word W} (hv : v ≠ 0) :
    ∃ k < 2 ^ W - 1, stepPow t k seed = v := by
  have hsurj := Finset.surjOn_of_injOn_of_card_le _ (mapsTo_toNat_stepPow ht hseed) (injOn_toNat_stepPow hP) (by simp)
  obtain ⟨k, hk, hkv⟩ := hsurj (Finset.mem_coe.2 (toNat_stepPow_mem ht hv 0))
  exact ⟨k, Finset.mem_range.1 hk, BitVec.eq_of_toNat_eq hkv⟩

end

/-- Settles O49: the least period is that of a permutation of finitely many words. -/
theorem orbitIsAPureCycle : Obligations.OrbitIsAPureCycle := by
  intro c seed t hseed ht
  have hperiodic := mem_periodicPts_lfsrStep ht (width_pos c) seed
  have hP := isPeriod_iff.2 ⟨Function.minimalPeriod_pos_of_mem_periodicPts hperiodic, rfl⟩
  exact ⟨_, period_le ht hseed hP, hP, stepPow_add_period hP, stepPow_ne_zero ht hseed,
    fun _ _ hj hk heq => stepPow_injOn hP hj hk heq⟩

/-! ## Maximal taps -/

section
variable {W : Nat} {t seed : Word W} {P : Nat}

/-- Every value of an orbit has the orbit's period. -/
theorem isPeriod_stepPow (hP : IsPeriod t seed P) (k : Nat) : IsPeriod t (stepPow t k seed) P := by
  obtain ⟨hpos, hminimal⟩ := isPeriod_iff.1 hP
  have hperiodic : seed ∈ Function.periodicPts (lfsrStep · t) :=
    Function.minimalPeriod_pos_iff_mem_periodicPts.1 (hminimal ▸ hpos)
  refine isPeriod_iff.2 ⟨hpos, ?_⟩
  rw [stepPow_eq_iterate, Function.minimalPeriod_apply_iterate hperiodic, hminimal]

variable (hW : 0 < W) (ht : t.getLsbD 0 = true) (hseed : seed ≠ 0)
include hW ht hseed

/-- When one orbit holds every nonzero word, every nonzero seed starts it at a different point (R163). -/
theorem isPeriod_of_isPeriod_one (hP : IsPeriod t 1#W (2 ^ W - 1)) : IsPeriod t seed (2 ^ W - 1) := by
  obtain ⟨k, -, rfl⟩ := exists_stepPow_eq ht (oneWord_ne_zero hW) hP hseed
  exact isPeriod_stepPow hP k

/-- A nonzero word is the step of one of the first `2 ^ W - 1` values, and these are distinct (R163). -/
theorem existsUnique_stepPow_eq (hP : IsPeriod t seed (2 ^ W - 1)) {v : Word W} (hv : v ≠ 0) :
    ∃! k, 1 ≤ k ∧ k ≤ 2 ^ W - 1 ∧ stepPow t k seed = v := by
  obtain ⟨k, hk, hkv⟩ := exists_stepPow_eq ht hseed hP (lfsrUnstep_ne_zero hW ht hv)
  refine ⟨k + 1, ⟨by omega, by omega, ?_⟩, ?_⟩
  · rw [stepPow_succ, hkv, lfsrStep_lfsrUnstep hW ht]
  · rintro (_ | j) ⟨hj, hjle, rfl⟩
    · omega
    · rw [stepPow_succ, lfsrUnstep_lfsrStep hW ht] at hkv
      rw [stepPow_injOn hP hk (Set.mem_Iio.2 hjle) hkv]

end

/-- Settles O50: the orbit of 1 holds every nonzero word, so the orbit of `seed` is the same cycle. -/
theorem maximalTapsVisitEveryNonzeroValue : Obligations.MaximalTapsVisitEveryNonzeroValue := by
  intro c tapsIn hmsb hmaximal seed hseed
  have hW := width_pos c
  have ht : (normaliseTaps tapsIn).getLsbD 0 = true := (normaliseTaps_bit_zero tapsIn).trans hmsb
  have hP := isPeriod_of_isPeriod_one hW ht hseed hmaximal
  exact ⟨hP, fun v hv => existsUnique_stepPow_eq hW ht hseed hP hv⟩

/-! ## The period from its prime factors -/

/-- A proper divisor of a product of primes divides the product without one of them. -/
theorem dvd_prod_div_of_dvd_prod {primes : List Nat} (hprimes : ∀ p ∈ primes, p.Prime) {m : Nat} (hm : m ∣ primes.prod)
    (hne : m ≠ primes.prod) : ∃ p ∈ primes, m ∣ primes.prod / p := by
  obtain ⟨a, ha⟩ := hm
  have ha_ne_one : a ≠ 1 := fun hone => hne (by rw [ha, hone, Nat.mul_one])
  obtain ⟨p, hp, b, rfl⟩ := Nat.exists_prime_and_dvd ha_ne_one
  have hprod : primes.prod = p * (m * b) := ha.trans (Nat.mul_left_comm m p b)
  refine ⟨p, mem_list_primes_of_dvd_prod hp.prime (fun q hq => (hprimes q hq).prime) ⟨m * b, hprod⟩, b, ?_⟩
  rw [hprod, Nat.mul_div_cancel_left _ hp.pos]

section
variable {W : Nat} {t : Word W}

/-- A product of primes is the period when it leads back to the seed and no quotient by one of the primes does. -/
theorem isPeriod_of_primes {seed : Word W} {primes : List Nat} (hprimes : ∀ p ∈ primes, p.Prime)
    (hfix : stepPow t primes.prod seed = seed) (hquotient : ∀ p ∈ primes, stepPow t (primes.prod / p) seed ≠ seed) :
    IsPeriod t seed primes.prod := by
  simp only [stepPow_eq_iterate] at hfix hquotient
  have hpos : 0 < primes.prod := Nat.pos_of_ne_zero fun hzero =>
    Nat.not_prime_zero (hprimes 0 (List.prod_eq_zero_iff.1 hzero))
  refine isPeriod_iff.2 ⟨hpos, by_contra fun hne => ?_⟩
  have hdvd : Function.minimalPeriod (lfsrStep · t) seed ∣ primes.prod := Function.IsPeriodicPt.minimalPeriod_dvd hfix
  obtain ⟨p, hp, hquotient_dvd⟩ := dvd_prod_div_of_dvd_prod hprimes hdvd hne
  exact hquotient p hp (Function.isPeriodicPt_iff_minimalPeriod_dvd.2 hquotient_dvd)

/-! ## Powers of the step by repeated squaring -/

/-- Every power of the step is linear (R128). -/
theorem stepPow_bitXor (t a b : Word W) (k : Nat) :
    stepPow t k (bitXor a b) = bitXor (stepPow t k a) (stepPow t k b) := by
  induction k with
  | zero => rfl
  | succ k ih => rw [stepPow_succ, ih, stepIsLinear, stepPow_succ, stepPow_succ]

theorem stepPow_of_zero (t : Word W) (k : Nat) : stepPow t k 0 = 0 := by
  induction k with
  | zero => rfl
  | succ k ih => rw [stepPow_succ, ih, zeroIsAFixedPoint]

/-- The value at `v` of a power of the step, from its value `w` at 1 alone, with `n` bits of `v` to go. The power is linear and
commutes with the step, and `v` is the step of `v << 1` with the bit of R127's inverse at bit 0. -/
def powFromOne (t w : Word W) : Nat → Word W → Word W
  | 0, _ => 0
  | n + 1, v =>
    lfsrStep (bitXor (powFromOne t w n (v <<< 1)) (if v.getLsbD (W - 1) ^^ feedbackBit (v <<< 1) t then w else 0)) t

theorem stepPow_zextBit (t : Word W) (k : Nat) (b : Bool) :
    stepPow t k (zextBit W b) = if b then stepPow t k 1#W else 0 := by
  cases b with
  | false => rw [show zextBit W false = 0 by simp [zextBit], stepPow_of_zero]; rfl
  | true => rw [zextBit_true]; rfl

/-- `Step^k(1, t)` by the `n` binary digits of `k`: a squaring for each, and a step for each that is 1. -/
def powOfOne (t : Word W) : Nat → Nat → Word W
  | 0, _ => 1#W
  | n + 1, k =>
    let half := powOfOne t n (k / 2)
    let even := powFromOne t half W half
    if k % 2 = 0 then even else lfsrStep even t

variable (hW : 0 < W) (ht : t.getLsbD 0 = true)
include hW ht

theorem powFromOne_eq (k : Nat) {n : Nat} {v : Word W} (hv : v <<< n = 0) :
    powFromOne t (stepPow t k 1#W) n v = stepPow t k v := by
  induction n generalizing v with
  | zero =>
    rw [BitVec.shiftLeft_zero] at hv
    rw [hv, stepPow_of_zero, powFromOne]
  | succ n ih =>
    have hshift : v <<< 1 <<< n = 0 := by rw [← BitVec.shiftLeft_add, Nat.add_comm, hv]
    calc powFromOne t (stepPow t k 1#W) (n + 1) v
      _ = lfsrStep (stepPow t k (lfsrUnstep v t)) t := by
        rw [powFromOne, ih hshift, ← stepPow_zextBit, ← stepPow_bitXor, ← lfsrUnstep_eq_bitXor]
      _ = stepPow t k (lfsrStep (lfsrUnstep v t) t) := (stepPow_lfsrStep t _ k).symm
      _ = stepPow t k v := by rw [lfsrStep_lfsrUnstep hW ht]

/-- Squaring: twice the steps from the seed 1 are the power applied to its own value. -/
theorem stepPow_add_self (k : Nat) :
    stepPow t (k + k) 1#W = powFromOne t (stepPow t k 1#W) W (stepPow t k 1#W) := by
  rw [powFromOne_eq hW ht k (BitVec.shiftLeft_eq_zero le_rfl), stepPow_add]

theorem powOfOne_eq {n k : Nat} (hk : k < 2 ^ n) : powOfOne t n k = stepPow t k 1#W := by
  induction n generalizing k with
  | zero =>
    obtain rfl : k = 0 := by omega
    rfl
  | succ n ih =>
    have hsquare := stepPow_add_self hW ht (k / 2)
    rw [powOfOne, ih (by omega), ← hsquare]
    split
    · rw [show k / 2 + k / 2 = k by omega]
    · rw [← stepPow_succ, show k / 2 + k / 2 + 1 = k by omega]

end

/-! ## The rows of R164 -/

/-- A tap value is maximal when `2 ^ W - 1` steps lead the seed 1 back to 1, and no quotient of it by a prime factor does. -/
theorem maximalTaps_of_primes {W : Nat} {tapsIn t : Word W} (htaps : normaliseTaps tapsIn = t)
    (ht : t.getLsbD 0 = true) {primes : List Nat} (hprod : primes.prod = 2 ^ W - 1) (hprimes : ∀ p ∈ primes, p.Prime)
    (hfix : powOfOne t W (2 ^ W - 1) = 1#W) (hquotient : ∀ p ∈ primes, powOfOne t W ((2 ^ W - 1) / p) ≠ 1#W) :
    MaximalTaps tapsIn := by
  have hpow : ∀ k, k ≤ 2 ^ W - 1 → stepPow t k 1#W = powOfOne t W k := fun k hk =>
    (powOfOne_eq (BitVec.lt_of_getLsbD ht) ht (Nat.lt_of_le_pred (Nat.two_pow_pos W) hk)).symm
  rw [← hprod] at hpow hfix hquotient
  rw [MaximalTaps, htaps, ← hprod]
  refine isPeriod_of_primes hprimes ?_ fun p hp => ?_
  · rw [hpow _ le_rfl, hfix]
  · rw [hpow _ (Nat.div_le_self _ p)]
    exact hquotient p hp

/-- Settles O51, row by row from the prime factors of `2 ^ W - 1`. -/
theorem sourceTapsUpToEightAreMaximal : Obligations.SourceTapsUpToEightAreMaximal := by
  have htaps2 : normaliseTaps 0x3#2 = 0x3#2 := by decide
  have htaps3 : normaliseTaps 0x6#3 = 0x3#3 := by decide
  have htaps4 : normaliseTaps 0xC#4 = 0x3#4 := by decide
  have htaps5 : normaliseTaps 0x14#5 = 0x05#5 := by decide
  have htaps6 : normaliseTaps 0x30#6 = 0x03#6 := by decide
  have htaps7 : normaliseTaps 0x60#7 = 0x03#7 := by decide
  have htaps8 : normaliseTaps 0xB8#8 = 0x1D#8 := by decide
  refine ⟨?_, ?_, ?_, ?_, ?_, ?_, ?_, htaps2, htaps3, htaps4, htaps5, htaps6, htaps7, htaps8⟩
  · exact maximalTaps_of_primes htaps2 (by decide) (primes := [3]) rfl (by norm_num) (by decide_cbv) (by decide_cbv)
  · exact maximalTaps_of_primes htaps3 (by decide) (primes := [7]) rfl (by norm_num) (by decide_cbv) (by decide_cbv)
  · exact maximalTaps_of_primes htaps4 (by decide) (primes := [3, 5]) rfl (by norm_num) (by decide_cbv) (by decide_cbv)
  · exact maximalTaps_of_primes htaps5 (by decide) (primes := [31]) rfl (by norm_num) (by decide_cbv) (by decide_cbv)
  · exact maximalTaps_of_primes htaps6 (by decide) (primes := [3, 3, 7]) rfl (by norm_num) (by decide_cbv) (by decide_cbv)
  · exact maximalTaps_of_primes htaps7 (by decide) (primes := [127]) rfl (by norm_num) (by decide_cbv) (by decide_cbv)
  · exact maximalTaps_of_primes htaps8 (by decide) (primes := [3, 5, 17]) rfl (by norm_num) (by decide_cbv) (by decide_cbv)

/-- The quotients of `2 ^ 16 - 1 = 3 * 5 * 17 * 257` by its prime factors are no periods under the mask `0x6FFF`. -/
theorem powOfOne_quotients_sixteen : ∀ p ∈ [3, 5, 17, 257], powOfOne 0x6FFF#16 16 ((2 ^ 16 - 1) / p) ≠ 1#16 := by
  simp only [List.forall_mem_cons]
  refine ⟨?_, ?_, ?_, ?_⟩ <;> decide_cbv

/-- Settles O52 as the rows of smaller width. -/
theorem sourceTapsSixteenAreMaximal : Obligations.SourceTapsSixteenAreMaximal := by
  have htaps : normaliseTaps 0xFFF6#16 = 0x6FFF#16 := by decide
  exact ⟨maximalTaps_of_primes htaps (by decide) rfl (by norm_num) (by decide_cbv) powOfOne_quotients_sixteen, htaps⟩

end Sys2Proof.Machine
end

section
/-! PROOFS. The error responses (spec 60_exceptions.md): which commands fail, that a failing command changes nothing, and what can
fail while the block holds an instance. -/

namespace Sys2Proof.Machine

theorem accepted_eq_false_iff {W : Nat} (seed tapsIn : Word W) :
    accepted seed tapsIn = false ↔ seed = 0 ∨ tapsIn.getLsbD (W - 1) = false := by
  rw [← Bool.not_eq_true, accepted_iff, not_and_or, not_ne_iff, Bool.not_eq_true]

/-- The inversion of an error response: the command is a `CONSTRUCT` that is not accepted, or a `NEXT` without an instance, and the
response is all it writes (R180, R181, R184). -/
theorem exec_err_cases {i : Instr} {s t : State} {kind : ErrorKind} (h : exec i s = .next t)
    (herr : t.response = some (.err kind)) :
    t = { s with response := some (.err kind) } ∧
      ((∃ seed tapsIn : Word s.cfg.W, i = .construct s.cfg.W seed tapsIn ∧ accepted seed tapsIn = false) ∨
        (i = .next ∧ s.constructed = false)) := by
  obtain ⟨c, sl, po, r⟩ := s
  obtain ⟨-, rfl⟩ | ⟨seed, tapsIn, rfl, hconstruct⟩ | ⟨rfl, hnext⟩ := exec_cases h
  · cases herr
  · obtain ⟨hseed, rfl⟩ | ⟨-, hmsb, rfl⟩ | ⟨-, -, rfl⟩ := hconstruct
    · cases herr
      exact ⟨rfl, .inl ⟨seed, tapsIn, rfl, (accepted_eq_false_iff _ _).2 (.inl hseed)⟩⟩
    · cases herr
      exact ⟨rfl, .inl ⟨seed, tapsIn, rfl, (accepted_eq_false_iff _ _).2 (.inr hmsb)⟩⟩
    · cases herr
  · obtain ⟨rfl, rfl⟩ | ⟨x, m, -, rfl⟩ := hnext
    · cases herr
      exact ⟨rfl, .inr ⟨rfl, rfl⟩⟩
    · cases herr

/-- Settles O21, by the inversion of an error response. -/
theorem failingCommandChangesNothing : Obligations.FailingCommandChangesNothing := by
  intro i s t kind h herr
  obtain ⟨hunchanged, -⟩ := exec_err_cases h herr
  exact hunchanged

/-- With an instance `NEXT` responds a value (R141). -/
theorem exec_next_value_of_constructed {s : State} (hs : s.constructed = true) :
    ∃ t v, exec .next s = .next t ∧ t.response = some (.value v) := by
  obtain ⟨c, _ | ⟨x, m⟩, po, r⟩ := s
  · cases hs
  · exact ⟨_, x, exec_next_holds c x m po r, rfl⟩

/-- Settles O22: of the two ways to fail, the `NEXT` without an instance is excluded. -/
theorem noErrorAfterConstruction : Obligations.NoErrorAfterConstruction := by
  intro s hs
  refine ⟨⟨_, idleRespondsNone s, rfl⟩, exec_next_value_of_constructed hs, fun i t kind h herr => ?_⟩
  obtain ⟨hunchanged, ⟨seed, tapsIn, hi, hrejected⟩ | ⟨-, hempty⟩⟩ := exec_err_cases h herr
  · exact ⟨⟨_, seed, tapsIn, hi, hrejected⟩, hunchanged⟩
  · simp [hs] at hempty

end Sys2Proof.Machine
end

section
/-! PROOFS. Reset, and the result of a run (spec 70_reset_and_hazards.md): reset cycles end the instance, and a run is its responses,
in order, and its last state. -/

namespace Sys2Proof.Machine

/-! ## Reset cycles -/

/-- One reset cycle and any number after it leave the reset state with the host's later cycles, whatever was there before (R210). -/
theorem steps_resets {c : Config} {po : List (Pins c.W)} {p : Pins c.W} {ps : List (Pins c.W)} (hp : p.rst = true)
    (hps : ∀ q ∈ ps, q.rst = true) (sl : Slot c.W) (r : Option (Response c.W)) :
    steps (ps.length + 1) ⟨c, sl, p :: (ps ++ po), r⟩ = .next ⟨c, .empty, po, none⟩ := by
  induction ps generalizing p sl r with
  | nil => exact (steps_one _).trans (step_reset hp)
  | cons q ps ih =>
    obtain ⟨hq, hrest⟩ := List.forall_mem_cons.1 hps
    exact (steps_succ (step_reset hp)).trans (ih hq hrest .empty none)

/-- Settles O2, by `steps_resets`, with the cycles after reset, if any, still on the port. -/
theorem resetCyclesEndTheInstance : Obligations.ResetCyclesEndTheInstance := by
  rintro ⟨c, sl, po, r⟩ ps hne hreset
  obtain ⟨p₀, ps, rfl⟩ := List.exists_cons_of_ne_nil hne
  obtain ⟨hp₀, hps⟩ := List.forall_mem_cons.1 hreset
  refine ⟨steps_resets hp₀ hps sl r, fun p i hrst hdecode => ?_⟩
  rw [present_append_mk]
  calc steps (ps.length + 1 + 1) ⟨c, sl, p₀ :: (ps ++ p :: po), r⟩
    _ = steps 1 ⟨c, .empty, p :: po, none⟩ := steps_add (steps_resets hp₀ hps sl r)
    _ = step ⟨c, .empty, p :: po, none⟩ := steps_one _
    _ = exec i ⟨c, .empty, po, none⟩ := step_command hrst hdecode

/-! ## A run goes on -/

/-- The inversion of a run of at least one cycle: its first cycle answers, and so does the rest. -/
theorem runFrom_succ_cases {n : Nat} {s : State} {q : RunResult} (h : runFrom (n + 1) s = .next q) :
    ∃ u q', step s = .next u ∧ runFrom n u = .next q' ∧ q = ⟨u.answers ++ q'.responses, q'.last⟩ := by
  cases hstep : step s with
  | next u =>
    rw [runFrom_succ hstep] at h
    cases hrest : runFrom n u with
    | next q' =>
      rw [hrest] at h
      cases h
      exact ⟨u, q', rfl, hrest, rfl⟩
    | fault r => exact nomatch r
    | refused r =>
      rw [hrest] at h
      cases h
  | fault r => exact nomatch r
  | refused r =>
    rw [runFrom_refused hstep] at h
    cases h

/-- A run in two parts: the responses of the first part, and then the second part from the state the first one left (R49). -/
theorem runFrom_add {n : Nat} (m : Nat) {s : State} {q : RunResult} (h : runFrom n s = .next q) :
    runFrom (n + m) s = prependAnswers q.responses (runFrom m q.last) := by
  induction n generalizing s q with
  | zero =>
    cases h
    rw [Nat.zero_add]
    cases runFrom m s <;> rfl
  | succ n ih =>
    obtain ⟨u, q', hstep, hrest, rfl⟩ := runFrom_succ_cases h
    rw [Nat.succ_add, runFrom_succ hstep, ih hrest, prependAnswers_append]

theorem runFrom_one {s u : State} (h : step s = .next u) : runFrom 1 s = .next ⟨u.answers, u⟩ := by
  rw [runFrom_succ h]
  simp [runFrom, prependAnswers]

/-- Settles O57: the second part of `runFrom_add` is the one further cycle. -/
theorem runAppendsEachResponse : Obligations.RunAppendsEachResponse := by
  intro n s t rs hrun
  refine ⟨fun u hstep => ?_, fun r hstep => ?_⟩
  · rw [runFrom_add 1 hrun, runFrom_one hstep]
    rfl
  · rw [runFrom_add 1 hrun, runFrom_refused hstep]
    rfl

/-! ## The last state of a run -/

/-- The state in which a run ends, without its responses. -/
def lastOutcome : Host.Outcome RunResult Fault Refusal → Host.Outcome State Fault Refusal
  | .next q => .next q.last
  | .fault r => .fault r
  | .refused r => .refused r

theorem lastOutcome_prependAnswers (answers : List Answer) (o : Host.Outcome RunResult Fault Refusal) :
    lastOutcome (prependAnswers answers o) = lastOutcome o := by
  cases o <;> rfl

/-- The run with its responses dropped is the run of the state alone (R222). -/
theorem steps_eq_lastOutcome (n : Nat) (s : State) : steps n s = lastOutcome (runFrom n s) := by
  induction n generalizing s with
  | zero => rfl
  | succ n ih =>
    cases hstep : step s with
    | next u => rw [steps_succ hstep, runFrom_succ hstep, lastOutcome_prependAnswers, ih]
    | fault r => exact nomatch r
    | refused r =>
      rw [steps, runFrom_refused hstep, hstep]
      rfl

theorem lastOutcome_eq_next {o : Host.Outcome RunResult Fault Refusal} {t : State} (h : lastOutcome o = .next t) :
    ∃ q, o = .next q := by
  cases o with
  | next q => exact ⟨q, rfl⟩
  | fault r => cases h
  | refused r => cases h

theorem lastOutcome_eq_refused_iff {o : Host.Outcome RunResult Fault Refusal} {r : Refusal} :
    lastOutcome o = .refused r ↔ o = .refused r := by
  cases o <;> simp [lastOutcome]

/-! ## One response for each command -/

section
variable {c : Config} {sl : Slot c.W} {po : List (Pins c.W)} {r : Option (Response c.W)}

/-- Every command that answers responds, and takes nothing off the port (R64). -/
theorem exec_responds {i : Instr} {t : State} (h : exec i ⟨c, sl, po, r⟩ = .next t) :
    ∃ sl' a, t = ⟨c, sl', po, some a⟩ := by
  obtain ⟨-, rfl⟩ | ⟨seed, tapsIn, -, hconstruct⟩ | ⟨-, hnext⟩ := exec_cases h
  · exact ⟨_, _, rfl⟩
  · obtain ⟨-, rfl⟩ | ⟨-, -, rfl⟩ | ⟨-, -, rfl⟩ := hconstruct <;> exact ⟨_, _, rfl⟩
  · obtain ⟨-, rfl⟩ | ⟨x, m, -, rfl⟩ := hnext <;> exact ⟨_, _, rfl⟩

/-- A cycle that answers takes itself off the port, and shows a response exactly when it is no reset cycle (R64, R210). -/
theorem step_response_isSome {p : Pins c.W} {t : State} (h : step ⟨c, sl, p :: po, r⟩ = .next t) :
    ∃ sl' r', t = ⟨c, sl', po, r'⟩ ∧ r'.isSome = !p.rst := by
  cases hrst : p.rst with
  | true =>
    rw [step_reset hrst] at h
    cases h
    exact ⟨.empty, none, rfl, rfl⟩
  | false =>
    cases hdecode : decode c.W p.word with
    | ok i =>
      rw [step_command hrst hdecode] at h
      obtain ⟨sl', a, rfl⟩ := exec_responds h
      exact ⟨sl', some a, rfl, rfl⟩
    | error e =>
      rw [step_rejected hrst hdecode] at h
      cases h

/-- What the host reads after a cycle is one answer of the block's width if there is a response, and nothing otherwise (R64). -/
theorem map_width_answers (sl : Slot c.W) (po : List (Pins c.W)) (r : Option (Response c.W)) :
    (State.mk c sl po r).answers.map Answer.W = List.replicate r.isSome.toNat c.W := by
  cases r <;> rfl

/-- The responses of a run are as many as its cycles without reset, each of the block's width (R64, R210, R222). -/
theorem map_width_responses {ps : List (Pins c.W)} {q : RunResult}
    (h : runFrom ps.length ⟨c, sl, ps ++ po, r⟩ = .next q) :
    q.responses.map Answer.W = List.replicate (ps.countP fun p => !p.rst) c.W := by
  induction ps generalizing sl r q with
  | nil =>
    cases h
    rfl
  | cons p ps ih =>
    obtain ⟨u, q', hstep, hrest, rfl⟩ := runFrom_succ_cases h
    obtain ⟨sl', r', rfl, hresponse⟩ := step_response_isSome hstep
    have hcount : (p :: ps).countP (fun p => !p.rst) = (!p.rst).toNat + ps.countP fun p => !p.rst := by
      cases hrst : p.rst <;> simp [hrst, Nat.add_comm]
    rw [List.map_append, map_width_answers, hresponse, ih hrest, List.replicate_append_replicate, hcount]

end

/-- Settles O56: what `map_width_responses` says of the responses, and `steps_eq_lastOutcome` of the last state and of the runs
without a result. -/
theorem runResultIsResponsesAndLastState : Obligations.RunResultIsResponsesAndLastState := by
  intro c ps
  rw [steps_eq_lastOutcome]
  refine ⟨fun q hq => ?_, fun t => lastOutcome_eq_next, fun r => lastOutcome_eq_refused_iff⟩
  obtain ⟨hlength, hwidth⟩ := List.eq_replicate_iff.1 (map_width_responses (sl := .empty) (po := []) (r := none) hq)
  refine ⟨congrArg lastOutcome hq, ?_, fun a ha => hwidth _ (List.mem_map_of_mem ha)⟩
  rwa [List.length_map] at hlength

end Sys2Proof.Machine
end
